-- ==== Sys2Proof/Word.lean ====
section
/-! DEFINITION. Word.lean: the word, the byte and the register number. -/

namespace Sys2Proof

/-- "Every register, memory cell, address and intermediate result is a 16-bit unsigned Word";
`+` on it is modulo 2^16 (00_scope.md R12). -/
abbrev Word := BitVec 16

/-- A byte of the console streams (10_state.md R34, R35). -/
abbrev Byte := BitVec 8

/-- The number k of a general register Rk, k in 0..7 (30_encoding.md R79). -/
abbrev Reg := Fin 8

end Sys2Proof
end

