-- ==== Sys2Proof/Syntax.lean ====
section
/-! DEFINITION. Syntax.lean: the instructions, one constructor per row of spec/opcode_table.json. -/

namespace Sys2Proof

/-- A decoded instruction, as `decode` of 30_encoding.md R86 answers it. Immediates and offsets are held already
sign-extended to 16 bits (R80); `Instr.wellFormed` says which values a field can give. -/
inductive Instr where
  /-- BR (R71, R97): branch condition bits n, z, p, and the offset. -/
  | br (n z p : Bool) (off : Word)
  /-- ADD, register form (R68, R93). -/
  | addReg (dr sr1 sr2 : Reg)
  /-- ADD, immediate form (R69, R93). -/
  | addImm (dr sr1 : Reg) (imm : Word)
  /-- LD (R75, R103). -/
  | ld (dr : Reg) (off : Word)
  /-- ST (R75, R107). -/
  | st (sr : Reg) (off : Word)
  /-- JSR (R73, R99). -/
  | jsr (off : Word)
  /-- JSRR (R74, R100). -/
  | jsrr (base : Reg)
  /-- AND, register form (R68, R94). -/
  | andReg (dr sr1 sr2 : Reg)
  /-- AND, immediate form (R69, R94). -/
  | andImm (dr sr1 : Reg) (imm : Word)
  /-- LDR (R76, R105). -/
  | ldr (dr base : Reg) (off : Word)
  /-- STR (R76, R109). -/
  | str (sr base : Reg) (off : Word)
  /-- RTI, the decoder's ILLEGAL(RTI) (R78, R119). -/
  | rti
  /-- NOT (R70, R95). -/
  | not (dr sr : Reg)
  /-- LDI (R75, R104). -/
  | ldi (dr : Reg) (off : Word)
  /-- STI (R75, R108). -/
  | sti (sr : Reg) (off : Word)
  /-- JMP (R72, R98). -/
  | jmp (base : Reg)
  /-- RES, the decoder's ILLEGAL(RES) (R78, R120). -/
  | res
  /-- LEA (R75, R106). -/
  | lea (dr : Reg) (off : Word)
  /-- TRAP (R77, R110), with the 8-bit trap vector (R81). -/
  | trap (vect : BitVec 8)
deriving DecidableEq, Repr

/-- The row's mnemonic in spec/opcode_table.json. -/
def Instr.mnemonic : Instr → String
  | .br .. => "BR"
  | .addReg .. | .addImm .. => "ADD"
  | .ld .. => "LD"
  | .st .. => "ST"
  | .jsr .. => "JSR"
  | .jsrr .. => "JSRR"
  | .andReg .. | .andImm .. => "AND"
  | .ldr .. => "LDR"
  | .str .. => "STR"
  | .rti => "RTI"
  | .not .. => "NOT"
  | .ldi .. => "LDI"
  | .sti .. => "STI"
  | .jmp .. => "JMP"
  | .res => "RES"
  | .lea .. => "LEA"
  | .trap .. => "TRAP"

/-! The pseudo-instructions of R90: other names of core instructions. -/

/-- RET is JMP R7. -/
abbrev Instr.ret : Instr := .jmp 7
/-- NOP is BR with no condition bit. -/
abbrev Instr.nop : Instr := .br false false false 0
/-- GETC is TRAP x20. -/
abbrev Instr.getc : Instr := .trap 0x20
/-- OUT is TRAP x21. -/
abbrev Instr.out : Instr := .trap 0x21
/-- PUTS is TRAP x22. -/
abbrev Instr.puts : Instr := .trap 0x22
/-- IN is TRAP x23. -/
abbrev Instr.in_ : Instr := .trap 0x23
/-- PUTSP is TRAP x24. -/
abbrev Instr.putsp : Instr := .trap 0x24
/-- HALT is TRAP x25. -/
abbrev Instr.halt : Instr := .trap 0x25

end Sys2Proof
end

