-- ==== Sys2Proof/WellFormed.lean ====
section
/-! DEFINITION. WellFormed.lean: which instructions have an encoding: every immediate and offset lies in the range of
its field (30_encoding.md R80). -/

namespace Sys2Proof

/-- `v`, read as a two's-complement number, fits a signed field of `n` bits. -/
def fitsSigned (n : Nat) (v : Word) : Bool :=
  decide (-(2 ^ (n - 1) : Int) ≤ v.toInt) && decide (v.toInt < (2 ^ (n - 1) : Int))

/-- The ranges of R80: imm5 -16..+15, offset6 -32..+31, PCoffset9 -256..+255, PCoffset11 -1024..+1023. Register
numbers and the trap vector are in range by their types (R79, R81). -/
def Instr.wellFormed : Instr → Bool
  | .br _ _ _ off => fitsSigned 9 off
  | .addReg _ _ _ => true
  | .addImm _ _ imm => fitsSigned 5 imm
  | .ld _ off => fitsSigned 9 off
  | .st _ off => fitsSigned 9 off
  | .jsr off => fitsSigned 11 off
  | .jsrr _ => true
  | .andReg _ _ _ => true
  | .andImm _ _ imm => fitsSigned 5 imm
  | .ldr _ _ off => fitsSigned 6 off
  | .str _ _ off => fitsSigned 6 off
  | .rti => true
  | .not _ _ => true
  | .ldi _ off => fitsSigned 9 off
  | .sti _ off => fitsSigned 9 off
  | .jmp _ => true
  | .res => true
  | .lea _ off => fitsSigned 9 off
  | .trap _ => true

end Sys2Proof
end

