-- ==== Sys2Proof/Decode.lean ====
section
/-! DEFINITION. Decode.lean: bit fields and their extension, the decoder (total: every word decodes, R86), the encoder,
and the opcode table as rows. -/

namespace Sys2Proof

/-! ## Fields (00_scope.md R11, R13; 30_encoding.md R67) -/

/-- The `n`-bit field of `w` whose least significant bit is bit `lo` (R11). -/
def field (w : Word) (lo n : Nat) : BitVec n := w.extractLsb' lo n

/-- The single bit `i` of `w` (R11). -/
def bit (w : Word) (i : Nat) : Bool := w.getLsbD i

/-- The register number in the 3-bit field at `lo` (R79). -/
def regField (w : Word) (lo : Nat) : Reg := (field w lo 3).toFin

/-- `sext_N` (R13): the bits above the field are its sign bit. -/
def sext {n : Nat} (v : BitVec n) : Word := v.signExtend 16

/-- `zext_N` (R13): the bits above the field are zero. -/
def zext {n : Nat} (v : BitVec n) : Word := v.zeroExtend 16

/-! ## The decoder (30_encoding.md R86; the opcode numbers are R85's: log 1) -/

/-- R86: the opcode is `w[15:12]`, written here as its four bits, bit 15 first; `w[5]` selects the second operand of
ADD and AND, `w[11]` selects JSR or JSRR (R82). Bits no format names are not read (R84; log 3). -/
def decode (w : Word) : Instr :=
  match bit w 15, bit w 14, bit w 13, bit w 12 with
  | false, false, false, false => .br (bit w 11) (bit w 10) (bit w 9) (sext (field w 0 9))
  | false, false, false, true =>
    if bit w 5 then .addImm (regField w 9) (regField w 6) (sext (field w 0 5))
    else .addReg (regField w 9) (regField w 6) (regField w 0)
  | false, false, true, false => .ld (regField w 9) (sext (field w 0 9))
  | false, false, true, true => .st (regField w 9) (sext (field w 0 9))
  | false, true, false, false =>
    if bit w 11 then .jsr (sext (field w 0 11)) else .jsrr (regField w 6)
  | false, true, false, true =>
    if bit w 5 then .andImm (regField w 9) (regField w 6) (sext (field w 0 5))
    else .andReg (regField w 9) (regField w 6) (regField w 0)
  | false, true, true, false => .ldr (regField w 9) (regField w 6) (sext (field w 0 6))
  | false, true, true, true => .str (regField w 9) (regField w 6) (sext (field w 0 6))
  | true, false, false, false => .rti
  | true, false, false, true => .not (regField w 9) (regField w 6)
  | true, false, true, false => .ldi (regField w 9) (sext (field w 0 9))
  | true, false, true, true => .sti (regField w 9) (sext (field w 0 9))
  | true, true, false, false => .jmp (regField w 6)
  | true, true, false, true => .res
  | true, true, true, false => .lea (regField w 9) (sext (field w 0 9))
  | true, true, true, true => .trap (field w 0 8)

/-- The host's view of the decoder: an instruction is one 16-bit word (R65), so a longer word is refused (log 33). -/
def decodeTableWord (nbits w : Nat) : Option Instr :=
  if nbits ≤ 16 then some (decode (BitVec.ofNat 16 (w % 2 ^ nbits))) else none

/-! ## The encoder (30_encoding.md R68 to R78; unread bits are zero, R90; log 32) -/

/-- A register number as a 3-bit field. -/
def regBits (r : Reg) : BitVec 3 := BitVec.ofFin r

/-- A condition or mode bit as a 1-bit field. -/
def boolBit (b : Bool) : BitVec 1 := BitVec.ofBool b

/-- A word that holds `v` in the field whose least significant bit is bit `lo`, and zero elsewhere. -/
def put {n : Nat} (lo : Nat) (v : BitVec n) : Word := v.setWidth 16 <<< lo

/-- The opcode in bits [15:12] (R66). -/
def putOp (op : BitVec 4) : Word := put 12 op

/-- The word of an instruction: each field of its format at its bits (R67). -/
def encode : Instr → Word
  | .br n z p off =>
    putOp 0b0000 ||| put 11 (boolBit n) ||| put 10 (boolBit z) ||| put 9 (boolBit p) ||| put 0 (off.setWidth 9)
  | .addReg dr sr1 sr2 => putOp 0b0001 ||| put 9 (regBits dr) ||| put 6 (regBits sr1) ||| put 0 (regBits sr2)
  | .addImm dr sr1 imm =>
    putOp 0b0001 ||| put 9 (regBits dr) ||| put 6 (regBits sr1) ||| put 5 0b1#1 ||| put 0 (imm.setWidth 5)
  | .ld dr off => putOp 0b0010 ||| put 9 (regBits dr) ||| put 0 (off.setWidth 9)
  | .st sr off => putOp 0b0011 ||| put 9 (regBits sr) ||| put 0 (off.setWidth 9)
  | .jsr off => putOp 0b0100 ||| put 11 0b1#1 ||| put 0 (off.setWidth 11)
  | .jsrr base => putOp 0b0100 ||| put 6 (regBits base)
  | .andReg dr sr1 sr2 => putOp 0b0101 ||| put 9 (regBits dr) ||| put 6 (regBits sr1) ||| put 0 (regBits sr2)
  | .andImm dr sr1 imm =>
    putOp 0b0101 ||| put 9 (regBits dr) ||| put 6 (regBits sr1) ||| put 5 0b1#1 ||| put 0 (imm.setWidth 5)
  | .ldr dr base off => putOp 0b0110 ||| put 9 (regBits dr) ||| put 6 (regBits base) ||| put 0 (off.setWidth 6)
  | .str sr base off => putOp 0b0111 ||| put 9 (regBits sr) ||| put 6 (regBits base) ||| put 0 (off.setWidth 6)
  | .rti => putOp 0b1000
  | .not dr sr => putOp 0b1001 ||| put 9 (regBits dr) ||| put 6 (regBits sr)
  | .ldi dr off => putOp 0b1010 ||| put 9 (regBits dr) ||| put 0 (off.setWidth 9)
  | .sti sr off => putOp 0b1011 ||| put 9 (regBits sr) ||| put 0 (off.setWidth 9)
  | .jmp base => putOp 0b1100 ||| put 6 (regBits base)
  | .res => putOp 0b1101
  | .lea dr off => putOp 0b1110 ||| put 9 (regBits dr) ||| put 0 (off.setWidth 9)
  | .trap v => putOp 0b1111 ||| put 0 v

/-- The bits of its word an instruction's format reads (R68 to R78); the others are R84's unread bits (log 3). -/
def Instr.readBits : Instr → Word
  | .br .. => 0xFFFF
  | .addReg .. => 0xFFE7
  | .addImm .. => 0xFFFF
  | .ld .. => 0xFFFF
  | .st .. => 0xFFFF
  | .jsr .. => 0xFFFF
  | .jsrr .. => 0xF9C0
  | .andReg .. => 0xFFE7
  | .andImm .. => 0xFFFF
  | .ldr .. => 0xFFFF
  | .str .. => 0xFFFF
  | .rti => 0xF000
  | .not .. => 0xFFC0
  | .ldi .. => 0xFFFF
  | .sti .. => 0xFFFF
  | .jmp .. => 0xF1C0
  | .res => 0xF000
  | .lea .. => 0xFFFF
  | .trap .. => 0xF0FF

/-! ## The opcode table (spec/opcode_table.json): a word w selects a row when `w &&& mask = pattern` -/

/-- One row of the opcode table. -/
structure OpcodeRow where
  mnemonic : String
  format : String
  pattern : Word
  mask : Word
deriving DecidableEq, Repr

/-- The table, row by row in its order. -/
def opcodeTable : List OpcodeRow :=
  [⟨"BR", "BR", 0x0000, 0xF000⟩, ⟨"ADD", "OPR", 0x1000, 0xF020⟩, ⟨"ADD", "OPI", 0x1020, 0xF020⟩,
   ⟨"LD", "PC9", 0x2000, 0xF000⟩, ⟨"ST", "PC9", 0x3000, 0xF000⟩, ⟨"JSR", "JSR", 0x4800, 0xF800⟩,
   ⟨"JSRR", "JSRR", 0x4000, 0xF800⟩, ⟨"AND", "OPR", 0x5000, 0xF020⟩, ⟨"AND", "OPI", 0x5020, 0xF020⟩,
   ⟨"LDR", "BASE6", 0x6000, 0xF000⟩] ++
  [⟨"STR", "BASE6", 0x7000, 0xF000⟩, ⟨"RTI", "FATAL", 0x8000, 0xF000⟩, ⟨"NOT", "NOT", 0x9000, 0xF000⟩,
   ⟨"LDI", "PC9", 0xA000, 0xF000⟩, ⟨"STI", "PC9", 0xB000, 0xF000⟩, ⟨"JMP", "JMP", 0xC000, 0xF000⟩,
   ⟨"RES", "FATAL", 0xD000, 0xF000⟩, ⟨"LEA", "PC9", 0xE000, 0xF000⟩, ⟨"TRAP", "TRAP", 0xF000, 0xF000⟩]

/-- A word selects a row. -/
def OpcodeRow.selects (r : OpcodeRow) (w : Word) : Bool := w &&& r.mask == r.pattern

/-- The format of an instruction, as the table names it. -/
def Instr.format : Instr → String
  | .br .. => "BR"
  | .addReg .. | .andReg .. => "OPR"
  | .addImm .. | .andImm .. => "OPI"
  | .ld .. | .st .. | .ldi .. | .sti .. | .lea .. => "PC9"
  | .jsr .. => "JSR"
  | .jsrr .. => "JSRR"
  | .ldr .. | .str .. => "BASE6"
  | .rti | .res => "FATAL"
  | .not .. => "NOT"
  | .jmp .. => "JMP"
  | .trap .. => "TRAP"

end Sys2Proof
end

