-- ==== Sys2Proof/Config.lean ====
section
/-! DEFINITION. Config.lean: the open parameters of the machine and its free values, as constants with no body: a
claim that rests on one holds for every value of it. -/

namespace Sys2Proof

/-- The two readings of "truncates via wraparound" (90_conflicts.md C9). -/
inductive LoadOverflow where
  /-- words beyond 0xFFFF are dropped -/
  | truncate
  /-- words beyond 0xFFFF are written from 0x0000 onward -/
  | wrap
deriving DecidableEq, Repr, Inhabited

/-- `P_TRAP_LINK_R7`: TRAP writes the incremented pc to R7 (00_scope.md R10, 92_eei_decisions.md D6; log 6). -/
opaque Config.trapLinkR7 : Bool

/-- `P_TRAP_INPUT_SETS_FLAGS`: GETC and IN update the flags from R0 (R10, D7; log 7). -/
opaque Config.trapInputSetsFlags : Bool

/-- `P_TRAP_STRING_READ_POLLS`: PUTS and PUTSP read memory through the polling read (R10, D10; log 10). -/
opaque Config.trapStringReadPolls : Bool

/-- `P_IN_PROMPT`: the bytes IN writes before it reads (R10, D13; log 13). -/
opaque Config.inPrompt : List Byte

/-- `P_HALT_NOTICE`: the bytes HALT writes (R10, D13; log 13). -/
opaque Config.haltNotice : List Byte

/-- `P_LOAD_OVERFLOW`: what image loading does past 0xFFFF (R10, D18; log 16). -/
opaque Config.loadOverflow : LoadOverflow

/-- The console input stream the host supplies to a run from reset: "whatever the host supplies"
(10_state.md R40; log 22). -/
opaque Config.hostInput : List Byte

/-- The n-th free draw of a keyboard poll: ready or not (10_state.md R34, 92_eei_decisions.md D19; log 17). -/
opaque Config.pollReady : Nat → Bool

end Sys2Proof
end

