-- ==== Sys2Proof/Machine/State.lean ====
section
/-! DEFINITION. Machine/State.lean: everything the machine holds, its reset value, and the reasons a step can stop. -/

namespace Sys2Proof.Machine

/-- The condition flags (10_state.md R25): N, Z or P after a flag-updating instruction, NONE from reset until the
first one (log 2). -/
inductive Cond where
  | none
  | n
  | z
  | p
deriving DecidableEq, Repr

/-- The run status (10_state.md R30). TERMINATED is the end of a run by the host's signal (60_exceptions.md R136,
R138; log 18). The fatal abort is no state: it is a `Fault` (R123). -/
inductive RunStatus where
  | running
  | halted
  | terminated
deriving DecidableEq, Repr

/-- The backing store: the bytes of the 65,536 cells that are not zero, in rising order. The cell at address a holds
its high byte at 2a and its low byte at 2a+1 (log 20). -/
abbrev Memory := List Host.Cell

/-- The whole state (10_state.md; INVENTORY.md lists each field with its rule). -/
structure State where
  /-- R0 to R7 (R21) -/
  regs : Vector Word 8
  /-- the address of the next instruction to fetch; the incremented pc while an instruction executes (R24) -/
  pc : Word
  /-- the condition flags (R25) -/
  cond : Cond
  /-- RUNNING, HALTED or TERMINATED (R30, R138) -/
  status : RunStatus
  /-- the backing store, KBSR at 0xFE00 and KBDR at 0xFE02 among its cells (R32, R42) -/
  mem : Memory
  /-- the console input stream: the bytes not yet delivered, oldest first (R34, R38; log 22) -/
  input : List Byte
  /-- answers already drawn for the coming keyboard polls; model's own field (R34; log 17) -/
  polls : List Bool
  /-- how many draws were taken from `Config.pollReady`; model's own field (log 17) -/
  pollCount : Nat
  /-- the console output stream (R35) -/
  output : List Byte
deriving DecidableEq, Repr

/-- What is left of the console when a step does not complete: the input not yet delivered and the output. No register
and no memory cell is in it (60_exceptions.md R123, R124; log 14). -/
structure Console where
  /-- the bytes not yet delivered: one that a poll of the stopped step consumed is gone (R124) -/
  input : List Byte
  /-- the output flushed so far (R123) -/
  output : List Byte
deriving DecidableEq, Repr

/-- The console of a state. -/
def State.console (s : State) : Console := ⟨s.input, s.output⟩

/-- Why the machine stops. -/
inductive Fault where
  /-- ABORTED(ILLEGAL_OPCODE(op)): raised by RTI (8) and RES (13) (60_exceptions.md R121). The hardware ends the run
  too; only the console is left (R123, R124): safe. -/
  | illegalOpcode (op : BitVec 4) (left : Console)
  /-- ABORTED(UNMAPPED_TRAP(v)): raised by TRAP with a vector outside 0x20 to 0x25 (43_trap.md R118). The spec decides
  for fatal where its source leaves a no-op open too (C5): safe. -/
  | unmappedTrap (v : BitVec 8) (left : Console)
  /-- Stuck: GETC or IN waits for input that never arrives (43_trap.md R112, R115; U11). Raised by those two; the
  hardware waits forever, with the prompt of IN written: safe. -/
  | inputNeverArrives (left : Console)
  /-- Stuck: PUTS or PUTSP walks a memory with no zero word forever (43_trap.md R114, R116; U12). Raised by those two;
  the hardware never ends the step: safe. -/
  | stringNeverEnds
deriving DecidableEq, Repr

/-- Why an instruction has no meaning. -/
inductive Refusal where
  /-- Raised by an arm of `exec` for an instruction that is not modelled yet; no arm raises it now: safe. -/
  | notModelled (mnemonic : String)
deriving DecidableEq, Repr

/-- The reset state (10_state.md R40): registers and memory zero, cond NONE, pc 0x3000, RUNNING, no output. The input is
whatever the host supplies. -/
def State.reset : State where
  regs := Vector.replicate 8 0
  pc := 0x3000
  cond := .none
  status := .running
  mem := []
  input := Config.hostInput
  polls := []
  pollCount := 0
  output := []

end Sys2Proof.Machine
end

