-- ==== Sys2Proof/Machine/Ops.lean ====
section
/-! DEFINITION. Machine/Ops.lean: the named operations over registers, memory, the keyboard and the console, the fatal
abort, TRAP entry, and the fetch. -/

namespace Sys2Proof.Machine

/-- What an instruction answers. -/
abbrev Result := Host.Outcome State Fault Refusal

/-! ## Registers and pc (10_state.md R21, R24) -/

/-- `x[r]` (00_scope.md R14). -/
def State.reg (s : State) (r : Reg) : Word := s.regs[r.val]

/-- `x[r] <- v` (R14). -/
def State.setReg (s : State) (r : Reg) (v : Word) : State := { s with regs := s.regs.set r.val v }

/-- `pc <- v` (R14). -/
def State.setPc (s : State) (v : Word) : State := { s with pc := v }

/-! ## The backing store (20_memory.md R42; layout: log 20) -/

/-- The byte at a key; an unlisted byte is zero, the reset contents (10_state.md R40). -/
def Memory.byte : Memory → Nat → Byte
  | [], _ => 0
  | c :: m, k => if c.1 = k then c.2 else Memory.byte m k

/-- A cell put before the first cell with a larger key. -/
def Memory.insertCell (c : Host.Cell) : Memory → Memory
  | [] => [c]
  | d :: m => if c.1 < d.1 then c :: d :: m else d :: Memory.insertCell c m

/-- The byte at key `k` becomes `v`; a zero byte is not listed. -/
def Memory.setByte (m : Memory) (k : Nat) (v : Byte) : Memory :=
  let rest := m.filter (fun c => c.1 != k)
  if v = 0 then rest else Memory.insertCell (k, v) rest

/-- `Store[a]` (00_scope.md R15). -/
def Memory.read (m : Memory) (a : Word) : Word := m.byte (2 * a.toNat) ++ m.byte (2 * a.toNat + 1)

/-- `Store[a] <- v` (20_memory.md R48). -/
def Memory.write (m : Memory) (a v : Word) : Memory :=
  (m.setByte (2 * a.toNat) (field v 8 8)).setByte (2 * a.toNat + 1) (field v 0 8)

/-- The canonical form: keys strictly rising, all inside the 65,536 cells, no zero byte listed. -/
abbrev Memory.wf (m : Memory) : Prop :=
  m.Pairwise (fun c d => c.1 < d.1) ∧ ∀ c ∈ m, c.1 < 131072 ∧ c.2 ≠ 0

/-! ## Console ports (10_state.md R34, R35) -/

/-- The free draw of one keyboard poll (R34; log 17). -/
def State.drawPoll (s : State) : Bool × State :=
  match s.polls with
  | r :: rs => (r, { s with polls := rs })
  | [] => (Config.pollReady s.pollCount, { s with pollCount := s.pollCount + 1 })

/-- The next input byte, consumed; none when no byte is left. -/
def State.takeInput (s : State) : Option Byte × State :=
  match s.input with
  | b :: bs => (some b, { s with input := bs })
  | [] => (none, s)

/-- `KbPoll()` (00_scope.md R16): ready, with the next byte, only when the draw says so and a byte is there (R34, D19). -/
def State.kbPoll (s : State) : Option Byte × State :=
  if s.drawPoll.1 then s.drawPoll.2.takeInput else (none, s.drawPoll.2)

/-- `KbGet()` (R16): the next byte; none when none ever arrives (D12; log 12). -/
def State.kbGet (s : State) : Option Byte × State := s.takeInput

/-- `Out` of each byte in order, then `Flush()` (R35, D21). -/
def State.out (s : State) (bs : List Byte) : State := { s with output := s.output ++ bs }

/-! ## The memory interface (20_memory.md R48 to R50) -/

/-- KBSR's address (00_scope.md R9). -/
def kbsrAddr : Word := 0xFE00

/-- KBDR's address (R9). -/
def kbdrAddr : Word := 0xFE02

/-- KBSR's "ready" value, bit 15 (R9). -/
def kbsrReady : Word := 0x8000

/-- `MemWrite(a, 1, v)`: plain storage at every address (R48). -/
def State.memWrite (s : State) (a v : Word) : State := { s with mem := s.mem.write a v }

/-- The poll a read of KBSR makes (R50): it rewrites KBSR, and KBDR when ready (zero-extended, D8; log 8). -/
def State.pollKeyboard (s : State) : State :=
  match s.kbPoll with
  | (some b, t) => (t.memWrite kbsrAddr kbsrReady).memWrite kbdrAddr (zext b)
  | (none, t) => t.memWrite kbsrAddr 0

/-- `MemRead(a, 1)`: a read of KBSR polls first (R50); any other read is plain (R49). -/
def State.memRead (s : State) (a : Word) : Word × State :=
  if a = kbsrAddr then (s.pollKeyboard.mem.read a, s.pollKeyboard) else (s.mem.read a, s)

/-! ## The fatal abort, TRAP entry and return, HALT -/

/-- `raise Abort(reason)` (60_exceptions.md R123, R124): the run ends, no register or memory cell is preserved, no
further fetch; the console is left as the aborting step's fetch left it. -/
def raiseAbort (reason : Console → Fault) (s : State) : Result := .fault (reason s.console)

/-- A wait for input that never ends (R112, R115; U11, log 12), with the console as it stands while waiting. -/
def waitForever (s : State) : Result := .fault (.inputNeverArrives s.console)

/-- TRAP entry (R127): nothing is saved but, if `P_TRAP_LINK_R7`, the incremented pc in R7 (log 6). -/
def State.trapEntry (s : State) : State := s.setReg 7 (if Config.trapLinkR7 then s.pc else s.reg 7)

/-- TRAP return (R128): execution goes on at `pc`, the address after the TRAP, which no routine writes. -/
def trapReturn (s : State) : Result := .next s

/-- `halt` (00_scope.md R16): `status <- HALTED`. -/
def State.halt (s : State) : State := { s with status := .halted }

/-! ## Fetch (70_reset_and_hazards.md R145) -/

/-- The word at `pc`, read through the device layer, and the state with `pc` incremented. -/
def State.fetch (s : State) : Word × State :=
  ((s.memRead s.pc).1, (s.memRead s.pc).2.setPc (s.pc + 1))

end Sys2Proof.Machine
end

