-- ==== Sys2Proof/Machine/Flags.lean ====
section
/-! DEFINITION. Machine/Flags.lean: the condition flags: how a result sets them, how BR tests them. -/

namespace Sys2Proof.Machine

/-- The flags of a value (10_state.md R27). -/
def condOf (v : Word) : Cond :=
  if bit v 15 then .n else if v = 0 then .z else .p

/-- `setcc(v)` (R27). -/
def State.setcc (s : State) (v : Word) : State := { s with cond := condOf v }

/-- `cond` as the 3-bit mask of R25: N = 100, Z = 010, P = 001, NONE = 000 (log 2). -/
def Cond.mask : Cond → BitVec 3
  | .none => 0b000
  | .n => 0b100
  | .z => 0b010
  | .p => 0b001

/-- BR's mask `w[11:9]`: n is bit 2, z bit 1, p bit 0 (41_control.md R97). -/
def branchMask (n z p : Bool) : BitVec 3 := boolBit n ++ boolBit z ++ boolBit p

/-- BR's test (R97): `(mask & cond) != 0`. -/
def branchTaken (n z p : Bool) (c : Cond) : Bool := branchMask n z p &&& c.mask != 0

/-- `x[dr] <- v`, then `setcc` of the register's value after the write (R27, R29). -/
def State.writeResult (s : State) (dr : Reg) (v : Word) : State :=
  (s.setReg dr v).setcc ((s.setReg dr v).reg dr)

/-- The flag update of GETC and IN: from R0, if `P_TRAP_INPUT_SETS_FLAGS` (43_trap.md R112, R115; log 7). -/
def State.inputFlags (s : State) : State :=
  { s with cond := if Config.trapInputSetsFlags then condOf (s.reg 0) else s.cond }

end Sys2Proof.Machine
end

