-- ==== Sys2Proof/Machine/Operands.lean ====
section
/-! DEFINITION. Machine/Operands.lean: the addressing modes (42_load_store.md R102) and the words a string routine reads. -/

namespace Sys2Proof.Machine

/-- PC-relative (R102, 30_encoding.md R83): the incremented pc plus the offset, modulo 2^16. -/
def State.pcRel (s : State) (off : Word) : Word := s.pc + off

/-- Base + offset (R102). -/
def State.baseOff (s : State) (base : Reg) (off : Word) : Word := s.reg base + off

/-- Indirect (R102): the pointer at the PC-relative address, read through the memory interface. -/
def State.indirect (s : State) (off : Word) : Word × State := s.memRead (s.pcRel off)

/-- One word of PUTS or PUTSP (43_trap.md R114): `MemRead` if `P_TRAP_STRING_READ_POLLS`, else `Store[a]`. The two differ
only at KBSR, so the parameter is asked only there (20_memory.md R49, R51; log 10). -/
def State.stringRead (s : State) (a : Word) : Word × State :=
  if a = kbsrAddr then
    (if Config.trapStringReadPolls then s.memRead a else (s.mem.read a, s))
  else (s.mem.read a, s)

end Sys2Proof.Machine
end

