-- ==== Sys2Proof/Machine/Control.lean ====
section
/-! DEFINITION. Machine/Control.lean: BR, JMP, JSR, JSRR (41_control.md). -/

namespace Sys2Proof.Machine

/-- BR (R97). -/
def execBr (n z p : Bool) (off : Word) (s : State) : Result :=
  .next (s.setPc (if branchTaken n z p s.cond then s.pcRel off else s.pc))

/-- JMP; RET when the base is R7 (R98). -/
def execJmp (base : Reg) (s : State) : Result := .next (s.setPc (s.reg base))

/-- The link JSR and JSRR make: R7 becomes the incremented pc (R99, R100). -/
def State.link (s : State) : State := s.setReg 7 s.pc

/-- JSR (R99). -/
def execJsr (off : Word) (s : State) : Result := .next (s.link.setPc (s.link.pcRel off))

/-- JSRR (R100): the base is read after R7 is written (D4; log 4). -/
def execJsrr (base : Reg) (s : State) : Result := .next (s.link.setPc (s.link.reg base))

end Sys2Proof.Machine
end

