-- ==== Sys2Proof/Machine/Fatal.lean ====
section
/-! DEFINITION. Machine/Fatal.lean: RTI and RES (44_fatal.md). -/

namespace Sys2Proof.Machine

/-- RTI (R119): always the fatal abort ILLEGAL_OPCODE(8). -/
def execRti (s : State) : Result := raiseAbort (.illegalOpcode 8) s

/-- RES (R120): always the fatal abort ILLEGAL_OPCODE(13). -/
def execRes (s : State) : Result := raiseAbort (.illegalOpcode 13) s

end Sys2Proof.Machine
end

