-- ==== Sys2Proof/Machine/LoadStore.lean ====
section
/-! DEFINITION. Machine/LoadStore.lean: LD, LDI, LDR, LEA, ST, STI, STR (42_load_store.md). -/

namespace Sys2Proof.Machine

/-- A load from `ea`: one `MemRead`, then the result and its flags. -/
def loadFrom (dr : Reg) (ea : Word) (s : State) : Result :=
  .next ((s.memRead ea).2.writeResult dr (s.memRead ea).1)

/-- LD (R103). -/
def execLd (dr : Reg) (off : Word) (s : State) : Result := loadFrom dr (s.pcRel off) s

/-- LDI (R104): the pointer read, then the data read, both through the memory interface. -/
def execLdi (dr : Reg) (off : Word) (s : State) : Result :=
  loadFrom dr (s.indirect off).1 (s.indirect off).2

/-- LDR (R105): the base is read before DR is written. -/
def execLdr (dr base : Reg) (off : Word) (s : State) : Result := loadFrom dr (s.baseOff base off) s

/-- LEA (R106): the address, not a value in memory; it sets the flags. -/
def execLea (dr : Reg) (off : Word) (s : State) : Result := .next (s.writeResult dr (s.pcRel off))

/-- ST (R107). -/
def execSt (sr : Reg) (off : Word) (s : State) : Result := .next (s.memWrite (s.pcRel off) (s.reg sr))

/-- STI (R108): the pointer read goes through the memory interface, the store never polls. -/
def execSti (sr : Reg) (off : Word) (s : State) : Result :=
  .next ((s.indirect off).2.memWrite (s.indirect off).1 ((s.indirect off).2.reg sr))

/-- STR (R109). -/
def execStr (sr base : Reg) (off : Word) (s : State) : Result :=
  .next (s.memWrite (s.baseOff base off) (s.reg sr))

end Sys2Proof.Machine
end

