-- ==== Sys2Proof/Machine/Operate.lean ====
section
/-! DEFINITION. Machine/Operate.lean: ADD, AND, NOT (40_operate.md). -/

namespace Sys2Proof.Machine

/-- ADD, register form (R93): both operands are read before DR is written. -/
def execAddReg (dr sr1 sr2 : Reg) (s : State) : Result :=
  .next (s.writeResult dr (s.reg sr1 + s.reg sr2))

/-- ADD, immediate form (R93). -/
def execAddImm (dr sr1 : Reg) (imm : Word) (s : State) : Result :=
  .next (s.writeResult dr (s.reg sr1 + imm))

/-- AND, register form (R94). -/
def execAndReg (dr sr1 sr2 : Reg) (s : State) : Result :=
  .next (s.writeResult dr (s.reg sr1 &&& s.reg sr2))

/-- AND, immediate form; the immediate is sign-extended (R94, C7). -/
def execAndImm (dr sr1 : Reg) (imm : Word) (s : State) : Result :=
  .next (s.writeResult dr (s.reg sr1 &&& imm))

/-- NOT (R95). -/
def execNot (dr sr : Reg) (s : State) : Result :=
  .next (s.writeResult dr (~~~ (s.reg sr)))

end Sys2Proof.Machine
end

