-- ==== Sys2Proof/Machine/Trap.lean ====
section
/-! DEFINITION. Machine/Trap.lean: TRAP and the six service routines (43_trap.md). Each routine runs to its end inside
the TRAP step. -/

namespace Sys2Proof.Machine

/-- `x[0] <- zext_8(b)` and the flags of R0 if the parameter says so (R112, R115). -/
def State.receive (s : State) (b : Byte) : State := (s.setReg 0 (zext b)).inputFlags

/-- GETC (R112): no output. -/
def trapGetc (s : State) : Result :=
  match s.kbGet with
  | (some b, t) => trapReturn (t.receive b)
  | (none, t) => waitForever t

/-- OUT (R113): the low byte of R0. -/
def trapOut (s : State) : Result := trapReturn (s.out [field (s.reg 0) 0 8])

/-- IN (R115): prompt, read, echo, store. -/
def trapIn (s : State) : Result :=
  match (s.out Config.inPrompt).kbGet with
  | (some b, t) => trapReturn ((t.out [b]).receive b)
  | (none, t) => waitForever t

/-- The bytes PUTS writes for one word: its low byte (R114, D9; log 9). -/
def putsBytes (c : Word) : List Byte := [field c 0 8]

/-- The bytes PUTSP writes for one word: the low byte, then the high byte if it is not zero (R116). -/
def putspBytes (c : Word) : List Byte :=
  if field c 8 8 = 0 then [field c 0 8] else [field c 0 8, field c 8 8]

/-- The loop of R114 and R116 over at most `fuel` words: it ends at a zero word; none when the words run out first.
Addresses wrap modulo 2^16 (D11; log 11). -/
def stringWalk (bytes : Word → List Byte) : Nat → Word → State → Option State
  | 0, _, _ => none
  | fuel + 1, a, s =>
    if (s.stringRead a).1 = 0 then some (s.stringRead a).2
    else stringWalk bytes fuel (a + 1) ((s.stringRead a).2.out (bytes (s.stringRead a).1))

/-- Enough words for every walk that ends: one trip round memory with nothing consumed meets every cell, and a trip that
ends nowhere consumed an input byte at KBSR (log 23). -/
def stringFuel (s : State) : Nat := 65536 * (s.input.length + 1)

/-- PUTS and PUTSP: the walk from R0; stuck when it never ends (U12). -/
def trapString (bytes : Word → List Byte) (s : State) : Result :=
  match stringWalk bytes (stringFuel s) (s.reg 0) s with
  | some t => trapReturn t
  | none => .fault .stringNeverEnds

/-- PUTS (R114). -/
def trapPuts (s : State) : Result := trapString putsBytes s

/-- PUTSP (R116). -/
def trapPutsp (s : State) : Result := trapString putspBytes s

/-- HALT (R117): the notice, then HALTED. -/
def trapHalt (s : State) : Result := .next ((s.out Config.haltNotice).halt)

/-- The fixed dispatch table (R110, R111); any other vector aborts (R118). -/
def trapDispatch (v : BitVec 8) (s : State) : Result :=
  if v = 0x20 then trapGetc s
  else if v = 0x21 then trapOut s
  else if v = 0x22 then trapPuts s
  else if v = 0x23 then trapIn s
  else if v = 0x24 then trapPutsp s
  else if v = 0x25 then trapHalt s
  else raiseAbort (.unmappedTrap v) s

/-- TRAP (R110). -/
def execTrap (v : BitVec 8) (s : State) : Result := trapDispatch v s.trapEntry

end Sys2Proof.Machine
end

