-- ==== Sys2Proof/Machine/Step.lean ====
section
/-! DEFINITION. Machine/Step.lean: one step of the execution loop (70_reset_and_hazards.md R145, R146). -/

namespace Sys2Proof.Machine

/-- RUNNING: fetch, increment pc, decode, execute (R145). HALTED and TERMINATED: no step is enabled and the state no
longer changes (R146; log 21). -/
def step (s : State) : Host.Outcome State Fault Refusal :=
  match s.status with
  | .running => exec (decode s.fetch.1) s.fetch.2
  | .halted => .next s
  | .terminated => .next s

/-- The state whose next step fetches the word `w`: it lies at `pc` of a running machine. At pc 0xFE00 the fetch polls and
overwrites the word (20_memory.md R60), so there the program counter moves to the start address (log 29). -/
def State.withFetchWord (s : State) (nbits w : Nat) : State :=
  let place : Word := if s.pc = kbsrAddr then 0x3000 else s.pc
  { s with status := .running, pc := place, mem := s.mem.write place (BitVec.ofNat 16 (w % 2 ^ nbits)) }

end Sys2Proof.Machine
end

