-- ==== Sys2Proof/Machine/Boot.lean ====
section
/-! DEFINITION. Machine/Boot.lean: what the host does to a machine: image loading before the first fetch
(70_reset_and_hazards.md R139 to R143), input, and the signal (60_exceptions.md R136). -/

namespace Sys2Proof.Machine

/-- An image file's bytes; none for a file that does not exist or cannot be read (R137). -/
abbrev ImageFile := Option (List Byte)

/-- Why a run does not begin (R136, R137; U5). -/
inductive BootError where
  /-- no image argument (R136) -/
  | noImage
  /-- a file that does not exist or cannot be read (R137) -/
  | unreadable
  /-- an empty file: not accepted (U5; log 30) -/
  | emptyFile
  /-- a trailing half word: not accepted (U5; log 30) -/
  | oddLength
deriving DecidableEq, Repr

/-- The big-endian words of a byte string; none when a half word is left over (R141). -/
def bigEndianWords : List Byte → Option (List Word)
  | [] => some []
  | [_] => none
  | hi :: lo :: rest => (bigEndianWords rest).map (fun ws => (hi ++ lo) :: ws)

/-- An image: the load origin, then the words to load (R141). -/
def parseImage : ImageFile → Except BootError (Word × List Word)
  | none => .error .unreadable
  | some bs =>
    match bigEndianWords bs with
    | none => .error .oddLength
    | some [] => .error .emptyFile
    | some (origin :: ws) => .ok (origin, ws)

/-- Words stored contiguously from address `k` on (R141); past 0xFFFF they are dropped or go on from 0x0000 (R142). -/
def loadWords (mode : LoadOverflow) : Nat → List Word → Memory → Memory
  | _, [], m => m
  | k, w :: ws, m =>
    if k < 65536 ∨ mode = .wrap then loadWords mode (k + 1) ws (m.write (BitVec.ofNat 16 k) w) else m

/-- The images loaded in sequence (R143); the first that fails ends the boot (R137). -/
def loadImages : List ImageFile → Memory → Except BootError Memory
  | [], m => .ok m
  | f :: fs, m =>
    match parseImage f with
    | .error e => .error e
    | .ok (origin, ws) => loadImages fs (loadWords Config.loadOverflow origin.toNat ws m)

/-- The reset sequence (R139): all zero, the images loaded, pc 0x3000, RUNNING. -/
def boot (files : List ImageFile) : Except BootError State :=
  match files with
  | [] => .error .noImage
  | f :: fs =>
    match loadImages (f :: fs) State.reset.mem with
    | .error e => .error e
    | .ok m => .ok { State.reset with mem := m }

/-- The host appends bytes to the console input stream (R136). -/
def State.supplyInput (s : State) (bs : List Byte) : State := { s with input := s.input ++ bs }

/-- The host's signal at a step boundary ends a run that goes on (R136, R138). DESIGN CHOICE (log 18): the spec gives only
the outcome TERMINATED and does not say what survives it; the model leaves every register, memory cell and console byte
as it was. -/
def State.hostTerminate (s : State) : State :=
  match s.status with
  | .running => { s with status := .terminated }
  | .halted => s
  | .terminated => s

end Sys2Proof.Machine
end

