-- ==== Sys2Proof/Safety.lean ====
section
/-! DEFINITION. Safety.lean: the ends of a run (60_exceptions.md R138), the state invariant, and the fairness of polls. -/

namespace Sys2Proof.Safety

open Sys2Proof.Machine

/-- What every state of the machine keeps: memory in its canonical form. -/
def Inv (s : State) : Prop := s.mem.wf

/-- `n` steps from `s` answer the state `t`. -/
def Reaches (n : Nat) (s t : State) : Prop := Sys2Proof.core.run n s = .next t

/-- A successful end: HALTED within `n` steps (R138). -/
def HaltsWithin (n : Nat) (s : State) : Prop := ∃ t, Reaches n s t ∧ t.status = .halted

/-- The reasons of the fatal abort (R121); the other faults are steps that never end (U11, U12). -/
def IsAbort : Fault → Prop
  | .illegalOpcode _ _ => True
  | .unmappedTrap _ _ => True
  | .inputNeverArrives _ => False
  | .stringNeverEnds => False

/-- The run aborts within `n` steps: a fault, never a successful end (R123). -/
def AbortsWithin (n : Nat) (s : State) : Prop := ∃ f, Sys2Proof.core.run n s = .fault f ∧ IsAbort f

/-- The run reaches a step that never ends (R138). -/
def StuckWithin (n : Nat) (s : State) : Prop := ∃ f, Sys2Proof.core.run n s = .fault f ∧ ¬ IsAbort f

/-- No run from `s` stops with a fault or a refusal. -/
def RunsForever (s : State) : Prop := ∀ n, ∃ t, Reaches n s t

/-- The fairness assumption of D19 on the free draws, for claims about polling loops: ready answers keep coming. A claim
that uses it states it as a hypothesis (70_reset_and_hazards.md R151). -/
def FairPolls : Prop := ∀ n, ∃ k, n ≤ k ∧ Config.pollReady k = true

end Sys2Proof.Safety
end

