-- ==== Sys2Proof/Certificates/Slice0/Obligations.lean ====
section
/-! DEFINITION. Certificates/Slice0/Obligations.lean: the statements for the provers. In the statements about `exec`, `s.pc`
is the incremented pc of the rules (00_scope.md R18). -/

namespace Sys2Proof.Claims

open Sys2Proof.Machine

/-! ## Words the statements use, written from the rules and not from the model's operations -/

/-- The flags of a value (10_state.md R27). -/
def flagsOf (v : Word) : Cond :=
  if v.getLsbD 15 = true then .n else if v = 0 then .z else .p

/-- `s` with a result in a destination register, its flags set, and nothing else changed. -/
def withResult (s : State) (dr : Reg) (v : Word) : State :=
  { s with regs := s.regs.set dr.val v, cond := flagsOf v }

/-- `s` after TRAP entry (60_exceptions.md R127): R7 holds the incremented pc if `P_TRAP_LINK_R7`. -/
def linked (s : State) : State :=
  if Config.trapLinkR7 = true then { s with regs := s.regs.set 7 s.pc } else s

/-- Bits [7:0] of a word. -/
def lowByte (w : Word) : Byte := w.setWidth 8

/-- Bits [15:8] of a word. -/
def highByte (w : Word) : Byte := (w >>> 8).setWidth 8

/-- What PUTSP writes for a word (43_trap.md R116). -/
def packedBytes (w : Word) : List Byte :=
  if highByte w = 0 then [lowByte w] else [lowByte w, highByte w]

/-- The destination register of a flag-updating instruction (10_state.md R28). -/
def flagDest : Instr → Option Reg
  | .addReg dr _ _ => some dr
  | .addImm dr _ _ => some dr
  | .andReg dr _ _ => some dr
  | .andImm dr _ _ => some dr
  | .not dr _ => some dr
  | .ld dr _ => some dr
  | .ldi dr _ => some dr
  | .ldr dr _ _ => some dr
  | .lea dr _ => some dr
  | .br _ _ _ _ => none
  | .st _ _ => none
  | .sti _ _ => none
  | .str _ _ _ => none
  | .jmp _ => none
  | .jsr _ => none
  | .jsrr _ => none
  | .rti => none
  | .res => none
  | .trap _ => none

/-- The register a store writes to memory, and the address it stores to (42_load_store.md R107 to R109). -/
def storeOf (s : State) : Instr → Option (Reg × Word)
  | .st sr off => some (sr, s.pc + off)
  | .str sr base off => some (sr, s.reg base + off)
  | .sti sr off => some (sr, (s.memRead (s.pc + off)).1)
  | .addReg _ _ _ => none
  | .addImm _ _ _ => none
  | .andReg _ _ _ => none
  | .andImm _ _ _ => none
  | .not _ _ => none
  | .ld _ _ => none
  | .ldi _ _ => none
  | .ldr _ _ _ => none
  | .lea _ _ => none
  | .br _ _ _ _ => none
  | .jmp _ => none
  | .jsr _ => none
  | .jsrr _ => none
  | .rti => none
  | .res => none
  | .trap _ => none

/-- The addresses an instruction other than TRAP reads through `MemRead`, in order (20_memory.md R51). -/
def readAddrs (s : State) : Instr → List Word
  | .ld _ off => [s.pc + off]
  | .ldi _ off => [s.pc + off, (s.memRead (s.pc + off)).1]
  | .ldr _ base off => [s.reg base + off]
  | .sti _ off => [s.pc + off]
  | .st _ _ => []
  | .str _ _ _ => []
  | .addReg _ _ _ => []
  | .addImm _ _ _ => []
  | .andReg _ _ _ => []
  | .andImm _ _ _ => []
  | .not _ _ => []
  | .lea _ _ => []
  | .br _ _ _ _ => []
  | .jmp _ => []
  | .jsr _ => []
  | .jsrr _ => []
  | .rti => []
  | .res => []
  | .trap _ => []

/-- One word of a string, as 43_trap.md R114 reads it. -/
def stringWord (s : State) (a : Word) : Word × State :=
  if Config.trapStringReadPolls = true then s.memRead a else (s.mem.read a, s)

/-- The loop of 43_trap.md R114 and R116 from address `a`: read a word, stop at a zero word, else write its bytes and go on
at the next address. -/
inductive StringLoop (bytes : Word → List Byte) : Word → State → State → Prop where
  | stop (a : Word) (s : State) : (stringWord s a).1 = 0 → StringLoop bytes a s (stringWord s a).2
  | go (a : Word) (s t : State) : (stringWord s a).1 ≠ 0 →
      StringLoop bytes (a + 1)
        { (stringWord s a).2 with output := (stringWord s a).2.output ++ bytes (stringWord s a).1 } t →
      StringLoop bytes a s t

/-- The bytes of an image file (70_reset_and_hazards.md R141): the origin, then the words, big-endian. -/
def imageBytes (origin : Word) (ws : List Word) : List Byte :=
  (origin :: ws).flatMap (fun w => [highByte w, lowByte w])

/-- An image stores a word to the cell at `a` (70_reset_and_hazards.md R141): some word k lies at origin + k modulo 2^16,
where past 0xFFFF only wrap stores it (R142, D18). -/
def imageWrites (f : ImageFile) (a : Word) : Prop :=
  ∃ (origin : Word) (ws : List Word) (k : Nat), parseImage f = .ok (origin, ws) ∧ k < ws.length ∧
    BitVec.ofNat 16 (origin.toNat + k) = a ∧ (origin.toNat + k < 65536 ∨ Config.loadOverflow = .wrap)

end Sys2Proof.Claims

open Sys2Proof Sys2Proof.Machine Sys2Proof.Claims

/-! ## Encoding -/

/-- For every instruction whose immediates and offsets fit their fields, decode of encode is the instruction itself,
every operand included. The opcode numbers are the spec's decision D1 (log 1), the order n, z, p its decision D2
(log 2), the zeros the encoder puts in unread bits D23 (log 32). [30_encoding.md sections 2 to 5] -/
def Obligations.DecodeEncodeRoundTrip : Prop :=
  ∀ i : Instr, i.wellFormed = true → decode (encode i) = i

/-- For every one of the 65,536 words, encoding what it decodes to gives the word back on the bits its format reads, and
zero in the bits no field names. Rests on D1, D2 and D3 (logs 1, 2, 3); that the encoder puts zero in the unread
bits is D23 (30_encoding.md rule R90, log 32). [30_encoding.md section 3, 30_encoding.md section 4 (unread bits),
30_encoding.md section 7 (R90), 92_eei_decisions.md D23] -/
def Obligations.EncodeDecodeKeepsReadBits : Prop :=
  ∀ w : Word, encode (decode w) = w &&& (decode w).readBits

/-- If a word agrees with another on the bits the other's format reads, both decode to the same instruction, so no
unread bit changes an instruction. Rests on the spec's decision D3 (log 3). [30_encoding.md section 4 (unread bits)] -/
def Obligations.UnreadBitsDoNotMatter : Prop :=
  ∀ w w' : Word, w' &&& (decode w).readBits = w &&& (decode w).readBits → decode w' = decode w

/-- The rows of the opcode table partition the 65,536 words: for every word the list of rows it selects is one row, with
the mnemonic and the format of the decoded instruction. Rests on D1 (log 1). [30_encoding.md section 5, INDEX.md
(layout of opcode_table.json)] -/
def Obligations.EveryWordSelectsExactlyItsRow : Prop :=
  ∀ w : Word,
    (opcodeTable.filter (fun r => r.selects w)).map (fun r => (r.mnemonic, r.format)) =
      [((decode w).mnemonic, (decode w).format)]

/-- Every word decodes to a well-formed instruction: imm5 in -16..+15, offset6 in -32..+31, PCoffset9 in -256..+255,
PCoffset11 in -1024..+1023. Which field a word has rests on D1 (log 1). [30_encoding.md section 4] -/
def Obligations.DecodedOperandsAreInRange : Prop :=
  ∀ w : Word, (decode w).wellFormed = true

/-- One word of each format, written out bit by bit from the spec's layouts, decodes to its instruction. The opcode
numbers are D1 (log 1). [95_test_vectors.md L2.1, 30_encoding.md section 5] -/
def Obligations.SampleWordsDecodeAsListed : Prop :=
  decode 0b0000111000000101 = .br true true true 5 ∧
    decode 0b0001011001000010 = .addReg 3 1 2 ∧
    decode 0b0001000001111111 = .addImm 0 1 (-1) ∧
    decode 0b0010001000000010 = .ld 1 2 ∧
    decode 0b0011011000000100 = .st 3 4 ∧
    decode 0b0100100000000101 = .jsr 5 ∧
    decode 0b0100000010000000 = .jsrr 2 ∧
    decode 0b0101101110000111 = .andReg 5 6 7 ∧
    decode 0b0110100101111111 = .ldr 4 5 (-1) ∧
    decode 0b0111011100000010 = .str 3 4 2 ∧
    decode 0b1000000000000000 = .rti ∧
    decode 0b1001010001111111 = .not 2 1 ∧
    decode 0b1010010000000001 = .ldi 2 1 ∧
    decode 0b1011011000000100 = .sti 3 4 ∧
    decode 0b1100000111000000 = .jmp 7 ∧
    decode 0b1101111010101101 = .res ∧
    decode 0b1110000111111111 = .lea 0 (-1) ∧
    decode 0b1111111100100101 = .trap 0x25

/-- For N in 5, 6, 9, 11 and an N-bit v: sext_N(v) is v OR (0xFFFF << N) when v[N-1] is 1 and v otherwise; equivalently
sext_N(v) mod 2^N is v and bits [15:N] all equal v[N-1]. For every width N up to 16, zext_N(v) is v with bits [15:N]
zero. [R13] -/
def Obligations.SextAndZextExtendFields : Prop :=
  (∀ n : Nat, n = 5 ∨ n = 6 ∨ n = 9 ∨ n = 11 → ∀ v : BitVec n,
      (sext v = if v.getLsbD (n - 1) = true then v.setWidth 16 ||| (0xFFFF : Word) <<< n else v.setWidth 16) ∧
      (sext v).toNat % 2 ^ n = v.toNat ∧
      ∀ k : Nat, n ≤ k → k < 16 → (sext v).getLsbD k = v.getLsbD (n - 1)) ∧
    ∀ n : Nat, n ≤ 16 → ∀ v : BitVec n,
      (zext v).toNat = v.toNat ∧ ∀ k : Nat, n ≤ k → (zext v).getLsbD k = false

/-! ## Flags -/

/-- setcc(v) makes cond N when v[15] is 1, Z when v is 0x0000, and P otherwise; every other part of the state is
unchanged. [R27] -/
def Obligations.SetccGivesSignOrZero : Prop :=
  ∀ (s : State) (v : Word),
    s.setcc v = { s with cond := if v.getLsbD 15 = true then .n else if v = 0 then .z else .p }

/-- When an instruction completes: if it is ADD, AND, NOT, LD, LDI, LDR or LEA with destination DR, cond is N, Z or P as
DR's new value says; if it is GETC or IN and P_TRAP_INPUT_SETS_FLAGS holds, cond is that of R0's new value, else
unchanged (10_state.md rule R28; the parameter is open, D7, log 7); and cond is NONE afterwards only if it was NONE
before (rule R26; NONE is D2, log 2). [10_state.md section 3, 92_eei_decisions.md D2 and D7] -/
def Obligations.FlagUpdatersLeaveSignOrZero : Prop :=
  ∀ (i : Instr) (s t : State), exec i s = .next t →
    (∀ dr : Reg, flagDest i = some dr → t.cond = flagsOf (t.reg dr)) ∧
    (i = .trap 0x20 ∨ i = .trap 0x23 →
      t.cond = if Config.trapInputSetsFlags = true then flagsOf (t.reg 0) else s.cond) ∧
    (t.cond = .none → s.cond = .none)

/-- When an instruction with no flag-updating destination register completes and it is not GETC or IN, cond is as before
(10_state.md rule R28; for GETC and IN see FlagUpdatersLeaveSignOrZero). [10_state.md section 3] -/
def Obligations.OnlyFlagUpdatersWriteCond : Prop :=
  ∀ (i : Instr) (s t : State), exec i s = .next t → flagDest i = none → i ≠ .trap 0x20 → i ≠ .trap 0x23 →
    t.cond = s.cond

/-- For every instruction but BR, running it from a state with another cond gives the same outcome: the same fault, or
the same next state up to cond (10_state.md rule R28, read only by BR). [10_state.md section 3] -/
def Obligations.CondIsReadOnlyByBr : Prop :=
  ∀ (i : Instr) (s : State) (c : Cond), (∀ n z p off, i ≠ .br n z p off) →
    (∀ t : State, exec i s = .next t → ∃ c' : Cond, exec i { s with cond := c } = .next { t with cond := c' }) ∧
    (∀ f : Fault, exec i s = .fault f → exec i { s with cond := c } = .fault f)

/-! ## Registers and pc -/

/-- Writing Ri makes Ri read the value and leaves every other register and every other part of the state alone; no
register is hardwired (10_state.md rule R21). [10_state.md section 1] -/
def Obligations.RegisterFileReadAfterWrite : Prop :=
  ∀ (s : State) (r r' : Reg) (v : Word),
    (s.setReg r v).reg r' = (if r' = r then v else s.reg r') ∧
    s.setReg r v = { s with regs := (s.setReg r v).regs }

/-- When an instruction completes and a register changed, the register is the destination DR of ADD, AND, NOT, LD, LDI,
LDR or LEA, or R7 of JSR or JSRR, or R0 of GETC or IN, or R7 of a TRAP when P_TRAP_LINK_R7 holds (10_state.md rule
R23; the parameter is open, D6, log 6). [10_state.md section 1] -/
def Obligations.OnlyNamedRegistersAreWritten : Prop :=
  ∀ (i : Instr) (s t : State) (r : Reg), exec i s = .next t → t.reg r ≠ s.reg r →
    flagDest i = some r ∨
    (r = 7 ∧ ((∃ off, i = .jsr off) ∨ ∃ base, i = .jsrr base)) ∨
    (r = 0 ∧ (i = .trap 0x20 ∨ i = .trap 0x23)) ∨
    (r = 7 ∧ Config.trapLinkR7 = true ∧ ∃ v, i = .trap v)

/-- When any other instruction completes, a TRAP among them, pc is still the incremented pc: execution goes on at the
next address (10_state.md rule R24, 60_exceptions.md rule R128). [10_state.md section 2, 60_exceptions.md section 3] -/
def Obligations.OnlyBranchesAndJumpsWritePc : Prop :=
  ∀ (i : Instr) (s t : State), exec i s = .next t →
    (∀ n z p off, i ≠ .br n z p off) → (∀ base, i ≠ .jmp base) → (∀ off, i ≠ .jsr off) → (∀ base, i ≠ .jsrr base) →
    t.pc = s.pc

/-! ## Memory and the keyboard -/

/-- After MemWrite(a, 1, v) the cell at a reads v and every other cell reads as before, for every address a, 0xFE00 and
0xFE02 included; nothing but memory changes: no poll, no input consumed. [R48] -/
def Obligations.MemWriteStoresExactlyOneCell : Prop :=
  ∀ (s : State) (a v : Word),
    s.memWrite a v = { s with mem := (s.memWrite a v).mem } ∧
    ∀ b : Word, (s.memWrite a v).mem.read b = if b = a then v else s.mem.read b

/-- For a other than 0xFE00, 0xFE02 included, MemRead(a, 1) returns Store[a] and leaves the state exactly as it was.
[R49] -/
def Obligations.MemReadIsPlainAwayFromKbsr : Prop :=
  ∀ (s : State) (a : Word), a ≠ 0xFE00 → s.memRead a = (s.mem.read a, s)

/-- When the poll is ready with byte b, the read of 0xFE00 returns 0x8000, KBSR holds 0x8000, KBDR holds b
zero-extended, every other cell is unchanged; when it is not ready the read returns 0, KBSR holds 0 and every other
cell, KBDR among them, is unchanged. The rest of the state is what the poll leaves (20_memory.md rule R50; zero
extension is D8, log 8; the draw D19, log 17). [20_memory.md section 3, 10_state.md section 5] -/
def Obligations.KbsrReadPolls : Prop :=
  ∀ s : State,
    (∀ (b : Byte) (t : State), s.kbPoll = (some b, t) →
      (s.memRead 0xFE00).1 = 0x8000 ∧ (s.memRead 0xFE00).2 = { t with mem := (s.memRead 0xFE00).2.mem } ∧
      ∀ a : Word, (s.memRead 0xFE00).2.mem.read a =
        if a = 0xFE00 then 0x8000 else if a = 0xFE02 then b.setWidth 16 else s.mem.read a) ∧
    (∀ t : State, s.kbPoll = (none, t) →
      (s.memRead 0xFE00).1 = 0 ∧ (s.memRead 0xFE00).2 = { t with mem := (s.memRead 0xFE00).2.mem } ∧
      ∀ a : Word, (s.memRead 0xFE00).2.mem.read a = if a = 0xFE00 then 0 else s.mem.read a)

/-- The poll takes one draw (the head of polls, or the free value Config.pollReady at pollCount); it answers the first
byte of the input and consumes it when the draw is ready and there is one, else it answers none and consumes
nothing; registers, memory, output, flags, pc and status are unchanged. The draw is the model's form of D19 (log
17). [10_state.md section 6, 92_eei_decisions.md D19] -/
def Obligations.PollDeliversTheNextByte : Prop :=
  ∀ s : State,
    s.kbPoll.1 = (if s.polls.head?.getD (Config.pollReady s.pollCount) = true then s.input.head? else none) ∧
    s.kbPoll.2 = { s with
      input := if s.polls.head?.getD (Config.pollReady s.pollCount) = true then s.input.tail else s.input
      polls := s.polls.tail
      pollCount := if s.polls = [] then s.pollCount + 1 else s.pollCount }

/-- When an instruction completes, a cell that is not the one a store writes reads as before, unless it is KBSR or KBDR
and the instruction read 0xFE00 through the memory interface: as an address of a load or a pointer, or as a word of
a string with P_TRAP_STRING_READ_POLLS (20_memory.md rules R48, R51, R52, R64; D10, log 10). [20_memory.md section
3, 42_load_store.md section 3] -/
def Obligations.OnlyStoresAndPollsChangeMemory : Prop :=
  ∀ (i : Instr) (s t : State) (a : Word), exec i s = .next t →
    (∀ (sr : Reg) (ea : Word), storeOf s i = some (sr, ea) → a ≠ ea) →
    t.mem.read a = s.mem.read a ∨
    ((a = 0xFE00 ∨ a = 0xFE02) ∧
      (0xFE00 ∈ readAddrs s i ∨ (Config.trapStringReadPolls = true ∧ (i = .trap 0x22 ∨ i = .trap 0x24))))

/-- When an instruction other than TRAP completes, output and status are unchanged; if it reads 0xFE00 through no load
or pointer, the input and the poll draws are unchanged too (10_state.md rules R34, R35, 20_memory.md rule R64).
[20_memory.md section 8, 10_state.md section 6] -/
def Obligations.OffTheConsoleNothingIsReadOrWritten : Prop :=
  ∀ (i : Instr) (s t : State), exec i s = .next t → (∀ v, i ≠ .trap v) →
    t.output = s.output ∧ t.status = s.status ∧
    (0xFE00 ∉ readAddrs s i → t.input = s.input ∧ t.polls = s.polls ∧ t.pollCount = s.pollCount)

/-! ## Operate, LEA, loads and stores -/

/-- From every state, with every register and immediate, ADD answers the next state in which DR is SR1 + SR2, or SR1 +
imm, modulo 2^16, with both operands read before DR is written, and cond is the flags of the sum. Everything else is
unchanged. [40_operate.md section 2 (ADD)] -/
def Obligations.AddCompletesWithSum : Prop :=
  ∀ (dr sr1 sr2 : Reg) (imm : Word) (s : State),
    exec (.addReg dr sr1 sr2) s = .next (withResult s dr (s.reg sr1 + s.reg sr2)) ∧
    exec (.addImm dr sr1 imm) s = .next (withResult s dr (s.reg sr1 + imm))

/-- From every state AND answers the next state in which DR is SR1 AND SR2, or SR1 AND imm (sign-extended by the
decoder, C7, log 24), and NOT the one in which bit k of DR is the inverse of bit k of SR for k in 0..15; cond is the
flags of the result. Everything else is unchanged. [40_operate.md section 2 (AND, NOT)] -/
def Obligations.AndAndNotCompleteBitwise : Prop :=
  ∀ (dr sr1 sr2 : Reg) (imm : Word) (s : State),
    exec (.andReg dr sr1 sr2) s = .next (withResult s dr (s.reg sr1 &&& s.reg sr2)) ∧
    exec (.andImm dr sr1 imm) s = .next (withResult s dr (s.reg sr1 &&& imm)) ∧
    exec (.not dr sr1) s = .next (withResult s dr (s.reg sr1 ^^^ 0xFFFF))

/-- From every state LEA answers the next state in which DR is pc + offset modulo 2^16 and cond is the flags of that
address; memory and the input are not touched. Everything else is unchanged. [42_load_store.md section 2 (LEA)] -/
def Obligations.LeaCompletesWithAddress : Prop :=
  ∀ (dr : Reg) (off : Word) (s : State), exec (.lea dr off) s = .next (withResult s dr (s.pc + off))

/-- LD reads at pc + offset and LDR at BaseR + offset; each answers the next state in which DR is the word read, cond
its flags, and the rest what the read leaves. When the effective address is not 0xFE00 the word is the stored one
and nothing else changes at all. [42_load_store.md sections 1 and 2 (LD, LDR)] -/
def Obligations.LdAndLdrCompleteWithLoadedWord : Prop :=
  ∀ (dr base : Reg) (off : Word) (s : State),
    exec (.ld dr off) s = .next (withResult (s.memRead (s.pc + off)).2 dr (s.memRead (s.pc + off)).1) ∧
    exec (.ldr dr base off) s =
      .next (withResult (s.memRead (s.reg base + off)).2 dr (s.memRead (s.reg base + off)).1) ∧
    (s.pc + off ≠ 0xFE00 → exec (.ld dr off) s = .next (withResult s dr (s.mem.read (s.pc + off)))) ∧
    (s.reg base + off ≠ 0xFE00 → exec (.ldr dr base off) s = .next (withResult s dr (s.mem.read (s.reg base + off))))

/-- LDI answers the next state in which DR is the word read at the pointer read at pc + offset, cond its flags, and the
rest what the two reads leave, in their order. When neither address is 0xFE00 the words are the stored ones and
nothing else changes. [42_load_store.md section 2 (LDI)] -/
def Obligations.LdiCompletesThroughPointer : Prop :=
  ∀ (dr : Reg) (off : Word) (s : State),
    exec (.ldi dr off) s = .next (withResult
      ((s.memRead (s.pc + off)).2.memRead (s.memRead (s.pc + off)).1).2 dr
      ((s.memRead (s.pc + off)).2.memRead (s.memRead (s.pc + off)).1).1) ∧
    (s.pc + off ≠ 0xFE00 → s.mem.read (s.pc + off) ≠ 0xFE00 →
      exec (.ldi dr off) s = .next (withResult s dr (s.mem.read (s.mem.read (s.pc + off)))))

/-- ST stores SR at pc + offset and STR at BaseR + offset; each answers a next state that differs from the state before
in memory only, and there only in that cell. No poll happens, whatever the address. [42_load_store.md sections 1 and
3 (ST, STR)] -/
def Obligations.StAndStrCompleteWithStore : Prop :=
  ∀ (sr base : Reg) (off : Word) (s : State),
    (∃ t : State, exec (.st sr off) s = .next t ∧ t = { s with mem := t.mem } ∧
      ∀ a : Word, t.mem.read a = if a = s.pc + off then s.reg sr else s.mem.read a) ∧
    (∃ t : State, exec (.str sr base off) s = .next t ∧ t = { s with mem := t.mem } ∧
      ∀ a : Word, t.mem.read a = if a = s.reg base + off then s.reg sr else s.mem.read a)

/-- STI answers a next state that is the state after the pointer read, changed in memory only, and there only in the
cell the pointer names, which holds SR. [42_load_store.md section 3 (STI)] -/
def Obligations.StiCompletesThroughPointer : Prop :=
  ∀ (sr : Reg) (off : Word) (s : State),
    ∃ t : State, exec (.sti sr off) s = .next t ∧ t = { (s.memRead (s.pc + off)).2 with mem := t.mem } ∧
      ∀ a : Word, t.mem.read a =
        if a = (s.memRead (s.pc + off)).1 then s.reg sr else (s.memRead (s.pc + off)).2.mem.read a

/-! ## Control transfer -/

/-- BR is taken when n and cond is N, or z and cond is Z, or p and cond is P; so never with n = z = p = 0 and never
while cond is NONE (D2, log 2). Taken, pc is the incremented pc plus the offset modulo 2^16; not taken, pc is the
incremented pc. Everything else is unchanged. [41_control.md section 2 (BR)] -/
def Obligations.BrCompletesOnMatchingFlag : Prop :=
  ∀ (n z p : Bool) (off : Word) (s : State),
    exec (.br n z p off) s = .next { s with
      pc := if (n = true ∧ s.cond = .n) ∨ (z = true ∧ s.cond = .z) ∨ (p = true ∧ s.cond = .p)
        then s.pc + off else s.pc }

/-- From every state JMP, RET among it, answers the next state in which pc is the full value of BaseR. Everything else
is unchanged. [41_control.md section 2 (JMP)] -/
def Obligations.JmpCompletesAtRegister : Prop :=
  ∀ (base : Reg) (s : State), exec (.jmp base) s = .next { s with pc := s.reg base }

/-- From every state JSR answers the next state in which R7 is the incremented pc and pc is that plus the offset modulo
2^16. Everything else is unchanged. [41_control.md section 2 (JSR)] -/
def Obligations.JsrCompletesWithLink : Prop :=
  ∀ (off : Word) (s : State), exec (.jsr off) s = .next { s with regs := s.regs.set 7 s.pc, pc := s.pc + off }

/-- From every state JSRR answers the next state in which R7 is the incremented pc and pc is BaseR, or the incremented
pc when BaseR is R7 (the spec's decision D4, log 4). Everything else is unchanged. [41_control.md section 2 (JSRR),
92_eei_decisions.md D4] -/
def Obligations.JsrrCompletesWithLinkThenBase : Prop :=
  ∀ (base : Reg) (s : State), exec (.jsrr base) s =
    .next { s with regs := s.regs.set 7 s.pc, pc := if base = 7 then s.pc else s.reg base }

/-! ## TRAP -/

/-- With b the next input byte GETC answers the next state: R0 is b zero-extended (D8, log 8), R7 as TRAP entry leaves
it (D6, log 6), cond the flags of R0 if P_TRAP_INPUT_SETS_FLAGS (D7, log 7), the byte consumed, nothing else
changed. With no byte ever to come it is stuck: the model's fault inputNeverArrives, with no input left and the
output as it was (D12, log 12). [43_trap.md section 2 (GETC)] -/
def Obligations.GetcCompletesWithNextByte : Prop :=
  ∀ s : State,
    (∀ (b : Byte) (bs : List Byte), s.input = b :: bs → exec (.trap 0x20) s = .next { linked s with
      regs := (linked s).regs.set 0 (b.setWidth 16)
      cond := if Config.trapInputSetsFlags = true then flagsOf (b.setWidth 16) else s.cond
      input := bs }) ∧
    (s.input = [] → exec (.trap 0x20) s = .fault (.inputNeverArrives ⟨[], s.output⟩))

/-- From every state OUT answers the next state in which the output has one more byte, bits [7:0] of R0; R0, the flags
and everything else are unchanged, but for R7 as TRAP entry leaves it (43_trap.md rule R110, 60_exceptions.md rule
R127; P_TRAP_LINK_R7 is open, D6, log 6). [43_trap.md section 2 (OUT, R113), 43_trap.md section 1 (R110),
60_exceptions.md section 3 (R127)] -/
def Obligations.OutWritesLowByteOfR0 : Prop :=
  ∀ s : State, exec (.trap 0x21) s = .next { linked s with output := s.output ++ [(s.reg 0).setWidth 8] }

/-- With b the next input byte IN answers the next state: the output gains P_IN_PROMPT (open, D13, log 13) and then b,
R0 is b zero-extended (log 8), R7 as TRAP entry leaves it (log 6), cond the flags of R0 if P_TRAP_INPUT_SETS_FLAGS
(log 7), the byte consumed, nothing else changed. With no byte ever to come it is stuck with the prompt written: the
model's fault inputNeverArrives (D12, log 12). [43_trap.md section 2 (IN)] -/
def Obligations.InPromptsEchoesAndStores : Prop :=
  ∀ s : State,
    (∀ (b : Byte) (bs : List Byte), s.input = b :: bs → exec (.trap 0x23) s = .next { linked s with
      regs := (linked s).regs.set 0 (b.setWidth 16)
      cond := if Config.trapInputSetsFlags = true then flagsOf (b.setWidth 16) else s.cond
      input := bs
      output := s.output ++ Config.inPrompt ++ [b] }) ∧
    (s.input = [] → exec (.trap 0x23) s = .fault (.inputNeverArrives ⟨[], s.output ++ Config.inPrompt⟩))

/-- From every state HALT answers the next state in which the output gains P_HALT_NOTICE (open, D13, log 13) and status
is HALTED; R0, the flags, memory and the rest are unchanged, but for R7 as TRAP entry leaves it (log 6). [43_trap.md
section 2 (HALT)] -/
def Obligations.HaltWritesNoticeAndHalts : Prop :=
  ∀ s : State, exec (.trap 0x25) s =
    .next { linked s with output := s.output ++ Config.haltNotice, status := .halted }

/-- When the words at R0, R0+1, ..., R0+n-1 (modulo 2^16, D11, log 11) are not zero and the word at R0+n is, and no word
of the string is a polled KBSR, PUTS answers the next state whose output gains the low bytes (D9, log 9) of those n
words in order; nothing else changes, but for R7 as TRAP entry leaves it. The polled case is
StringRoutinesRunTheLoop. [43_trap.md section 2 (PUTS)] -/
def Obligations.PutsWritesStringUpToZeroWord : Prop :=
  ∀ (s : State) (n : Nat),
    (∀ k, k < n → s.mem.read (s.reg 0 + BitVec.ofNat 16 k) ≠ 0) → s.mem.read (s.reg 0 + BitVec.ofNat 16 n) = 0 →
    (Config.trapStringReadPolls = false ∨ ∀ k, k ≤ n → s.reg 0 + BitVec.ofNat 16 k ≠ 0xFE00) →
    exec (.trap 0x22) s = .next { linked s with
      output := s.output ++ (List.range n).map (fun k => lowByte (s.mem.read (s.reg 0 + BitVec.ofNat 16 k))) }

/-- As PUTS, but each word gives its low byte, zero or not, and then its high byte unless that is zero (43_trap.md rule
R116). The polled case is StringRoutinesRunTheLoop. [43_trap.md section 2 (PUTSP)] -/
def Obligations.PutspWritesPackedStringUpToZeroWord : Prop :=
  ∀ (s : State) (n : Nat),
    (∀ k, k < n → s.mem.read (s.reg 0 + BitVec.ofNat 16 k) ≠ 0) → s.mem.read (s.reg 0 + BitVec.ofNat 16 n) = 0 →
    (Config.trapStringReadPolls = false ∨ ∀ k, k ≤ n → s.reg 0 + BitVec.ofNat 16 k ≠ 0xFE00) →
    exec (.trap 0x24) s = .next { linked s with
      output := s.output ++
        (List.range n).flatMap (fun k => packedBytes (s.mem.read (s.reg 0 + BitVec.ofNat 16 k))) }

/-- PUTS (PUTSP) answers a next state t if and only if the unbounded loop of 43_trap.md rule R114 (R116), begun at
address R0 in the state after TRAP entry, ends in t; so the model's bound on the walk cuts no string short, with
P_TRAP_STRING_READ_POLLS either way (D10, log 10; the bound is log 23; finite input is log 22). [43_trap.md section
2 (PUTS, PUTSP)] -/
def Obligations.StringRoutinesRunTheLoop : Prop :=
  ∀ s t : State,
    (exec (.trap 0x22) s = .next t ↔ StringLoop (fun c => [lowByte c]) (s.reg 0) (linked s) t) ∧
    (exec (.trap 0x24) s = .next t ↔ StringLoop packedBytes (s.reg 0) (linked s) t)

/-- Either string reads do not poll, no cell of memory is zero, and the routine is stuck (the model's fault
stringNeverEnds, log 23); or that is not so and the routine completes with registers as TRAP entry leaves them, pc,
flags and status unchanged, and the output only longer. With polling the finite input (log 22) ends every walk at
KBSR. [43_trap.md section 2 (PUTS, PUTSP), 93_implementation_defined.md U12] -/
def Obligations.StringRoutineIsStuckExactlyWithoutZeroWord : Prop :=
  ∀ (v : BitVec 8) (s : State), v = 0x22 ∨ v = 0x24 →
    ((Config.trapStringReadPolls = false ∧ ∀ a : Word, s.mem.read a ≠ 0) ∧
      exec (.trap v) s = .fault .stringNeverEnds) ∨
    (¬ (Config.trapStringReadPolls = false ∧ ∀ a : Word, s.mem.read a ≠ 0) ∧
      ∃ t : State, exec (.trap v) s = .next t ∧ t.regs = (linked s).regs ∧ t.pc = s.pc ∧ t.cond = s.cond ∧
        t.status = s.status ∧ s.output <+: t.output)

/-- For every vector below 0x20 or above 0x25 the TRAP ends in ABORTED(UNMAPPED_TRAP(v)) (the spec's decision D5, log
5); nothing is written to the output and no input is consumed (43_trap.md rule R118; what the fault records is log
14). [43_trap.md section 2 (unmapped vector), 60_exceptions.md section 1, 90_conflicts.md C5] -/
def Obligations.UnmappedVectorAborts : Prop :=
  ∀ (v : BitVec 8) (s : State), v.toNat < 0x20 ∨ 0x25 < v.toNat → exec (.trap v) s = .fault (.unmappedTrap v ⟨s.input, s.output⟩)

/-! ## Fatal opcodes -/

/-- Every word 0x8000 to 0x8FFF decodes to RTI and every word 0xD000 to 0xDFFF to RES; executing RTI in any state is
ABORTED(ILLEGAL_OPCODE(8)), executing RES ABORTED(ILLEGAL_OPCODE(13)); so a running step that fetches one aborts.
What is left of the console is in StepStopsOnlyForListedCauses. [R119, R120] -/
def Obligations.RtiAndResAbort : Prop :=
  ∀ (w : Word) (s : State),
    (∃ left, exec .rti s = .fault (.illegalOpcode 8 left)) ∧ (∃ left, exec .res s = .fault (.illegalOpcode 13 left)) ∧
    (w.extractLsb' 12 4 = 8 → decode w = .rti) ∧ (w.extractLsb' 12 4 = 13 → decode w = .res) ∧
    (s.status = .running → (s.memRead s.pc).1.extractLsb' 12 4 = 8 →
      ∃ left, step s = .fault (.illegalOpcode 8 left)) ∧
    (s.status = .running → (s.memRead s.pc).1.extractLsb' 12 4 = 13 →
      ∃ left, step s = .fault (.illegalOpcode 13 left))

/-! ## The step -/

/-- While status is RUNNING, a step is exec of the decoded word MemRead(pc, 1) gives, in the state that read leaves with
pc incremented modulo 2^16. [R145] -/
def Obligations.StepFetchesDecodesExecutes : Prop :=
  ∀ s : State, s.status = .running →
    step s = exec (decode (s.memRead s.pc).1) { (s.memRead s.pc).2 with pc := s.pc + 1 }

/-- If the machine runs, pc is not 0xFE00 and the word at pc decodes to the well-formed instruction i, or is the
encoding of i, the step is exec of i in the same state with pc incremented. [70_reset_and_hazards.md section 2,
20_memory.md section 3] -/
def Obligations.StepRunsTheInstructionAtPc : Prop :=
  ∀ (s : State) (i : Instr), s.status = .running → s.pc ≠ 0xFE00 → i.wellFormed = true →
    decode (s.mem.read s.pc) = i ∨ s.mem.read s.pc = encode i → step s = exec i { s with pc := s.pc + 1 }

/-- At pc 0xFE00 the fetch is a polling read. Not ready, the fetched word is 0x0000, a BR never taken, and the step ends
at pc 0xFE01 with KBSR zero. Ready, the fetched word is 0x8000, RTI, and the step aborts with the polled byte gone
from the input and the output as it was (60_exceptions.md rules R123, R124; what the fault records is log 14). Rule
R60 calls both words BR; rules R86, R87 and vector L2.6 row 5 make 0x8000 fatal, which the model follows (DEDUCED,
log 31). [20_memory.md section 6, 30_encoding.md section 6, 60_exceptions.md section 1, 95_test_vectors.md L2.6] -/
def Obligations.FetchFromKbsrPolls : Prop :=
  ∀ s : State, s.status = .running → s.pc = 0xFE00 →
    (∀ t : State, s.kbPoll = (none, t) → ∃ u : State, step s = .next u ∧ u = { t with pc := 0xFE01, mem := u.mem } ∧
      ∀ a : Word, u.mem.read a = if a = 0xFE00 then 0 else s.mem.read a) ∧
    (∀ (b : Byte) (t : State), s.kbPoll = (some b, t) →
      ∃ bs : List Byte, s.input = b :: bs ∧ step s = .fault (.illegalOpcode 8 ⟨bs, s.output⟩))

/-- If a store of a running machine writes register sr to the cell at pc, which is not 0xFE00, then after it the next
step executes the instruction that sr's value decodes to, with nothing in between (20_memory.md rule R59).
[20_memory.md section 6, 70_reset_and_hazards.md section 3] -/
def Obligations.StoredWordIsExecutedNext : Prop :=
  ∀ (i : Instr) (sr : Reg) (s t : State), s.status = .running → s.pc ≠ 0xFE00 →
    storeOf s i = some (sr, s.pc) → exec i s = .next t →
    step t = exec (decode (s.reg sr)) { t with pc := s.pc + 1 }

/-- From a state whose status is not RUNNING every run of steps answers that same state: no fetch, no effect
(70_reset_and_hazards.md rule R146, 60_exceptions.md rule R135). That a step of a stopped machine answers the state
itself is the model's choice (log 21). [70_reset_and_hazards.md section 2, 60_exceptions.md sections 5 and 6] -/
def Obligations.StoppedRunStaysStopped : Prop :=
  ∀ (n : Nat) (s : State), s.status ≠ .running → Sys2Proof.core.run n s = .next s

/-- If a step of a running machine answers a state that does not run, the fetched word decoded to TRAP with vector 0x25
and the new status is HALTED (70_reset_and_hazards.md rule R146). [70_reset_and_hazards.md section 2] -/
def Obligations.OnlyHaltStopsTheLoop : Prop :=
  ∀ s t : State, s.status = .running → step s = .next t → t.status ≠ .running →
    t.status = .halted ∧ decode (s.memRead s.pc).1 = .trap 0x25

/-- A step that faults is running and fetched RTI (ILLEGAL_OPCODE(8)), RES (ILLEGAL_OPCODE(13)), a TRAP outside 0x20 to
0x25 (UNMAPPED_TRAP, D5, log 5), GETC or IN with no input left (log 12), or PUTS or PUTSP over a memory with no zero
word with string reads that do not poll (log 23); no step is refused. An abort leaves the output as it was before
the step and the input as the fetch left it, so a byte that the fetch polled is gone (rules R123, R124); a wait for
input leaves no input, and the output with IN's prompt (that the faults record this is logs 12 and 14). There is no
arithmetic, memory, alignment or privilege fault (60_exceptions.md rule R121). [60_exceptions.md section 1,
93_implementation_defined.md section 1] -/
def Obligations.StepStopsOnlyForListedCauses : Prop :=
  ∀ s : State,
    (∀ r : Refusal, step s ≠ .refused r) ∧
    (∀ f : Fault, step s = .fault f → s.status = .running ∧
      ((f = .illegalOpcode 8 ⟨(s.memRead s.pc).2.input, s.output⟩ ∧ decode (s.memRead s.pc).1 = .rti) ∨
       (f = .illegalOpcode 13 ⟨(s.memRead s.pc).2.input, s.output⟩ ∧ decode (s.memRead s.pc).1 = .res) ∨
       (∃ v : BitVec 8, f = .unmappedTrap v ⟨(s.memRead s.pc).2.input, s.output⟩ ∧
         decode (s.memRead s.pc).1 = .trap v ∧ (v.toNat < 0x20 ∨ 0x25 < v.toNat)) ∨
       (f = .inputNeverArrives ⟨[], s.output⟩ ∧ (s.memRead s.pc).2.input = [] ∧
         decode (s.memRead s.pc).1 = .trap 0x20) ∨
       (f = .inputNeverArrives ⟨[], s.output ++ Config.inPrompt⟩ ∧ (s.memRead s.pc).2.input = [] ∧
         decode (s.memRead s.pc).1 = .trap 0x23) ∨
       (f = .stringNeverEnds ∧ Config.trapStringReadPolls = false ∧ (∀ a : Word, (s.memRead s.pc).2.mem.read a ≠ 0) ∧
         (decode (s.memRead s.pc).1 = .trap 0x22 ∨ decode (s.memRead s.pc).1 = .trap 0x24))))

/-! ## Invariants -/

/-- From every state whose memory is in the model's canonical form (log 20), reached or not, a step that answers a next
state answers one whose memory is in that form; so two memories with equal cells are the same data. [20_memory.md
sections 1 and 3] -/
def Obligations.StepKeepsCanonicalMemory : Prop :=
  ∀ s t : State, Safety.Inv s → step s = .next t → Safety.Inv t

/-- The memory of the reset state lists nothing and is in canonical form (log 20). [10_state.md section 8] -/
def Obligations.ResetMemoryIsCanonical : Prop :=
  Safety.Inv State.reset

/-- If two memories in canonical form (log 20) read the same word at every address, they are the same list, so comparing
states compares what the spec calls memory. [20_memory.md section 1] -/
def Obligations.EqualCellsAreEqualMemory : Prop :=
  ∀ m m' : Memory, m.wf → m'.wf → (∀ a : Word, m.read a = m'.read a) → m = m'

/-- Whatever number of steps a run takes, the output it started with is a prefix of the output it ends with (10_state.md
rule R35; the byte list is D22, log 19). [10_state.md section 6] -/
def Obligations.OutputOnlyGrows : Prop :=
  ∀ (n : Nat) (s t : State), Sys2Proof.core.run n s = .next t → s.output <+: t.output

/-- Whatever number of steps a run takes, the input left is a suffix of the input it started with (10_state.md rule R34,
20_memory.md rule R56). [10_state.md section 6, 20_memory.md section 5] -/
def Obligations.InputIsConsumedInOrderOnce : Prop :=
  ∀ (n : Nat) (s t : State), Sys2Proof.core.run n s = .next t → t.input <:+ s.input

/-- Whatever number of steps a run takes from a state whose cond is N, Z or P, cond is N, Z or P at its end (10_state.md
rule R26; NONE is D2, log 2). [10_state.md section 3] -/
def Obligations.CondNeverBecomesNoneAgain : Prop :=
  ∀ (n : Nat) (s t : State), s.cond ≠ .none → Sys2Proof.core.run n s = .next t → t.cond ≠ .none

/-! ## Reset, boot and host -/

/-- In the reset state R0 to R7 and every memory cell, KBSR and KBDR among them, read 0x0000, pc is 0x3000, cond is NONE
(C2, D2, log 2), status is RUNNING and the output is empty (10_state.md rule R40). [10_state.md section 8,
70_reset_and_hazards.md section 1] -/
def Obligations.ResetStateIsAsListed : Prop :=
  (∀ r : Reg, State.reset.reg r = 0) ∧ (∀ a : Word, State.reset.mem.read a = 0) ∧ State.reset.pc = 0x3000 ∧
    State.reset.cond = .none ∧ State.reset.status = .running ∧ State.reset.output = []

/-- If the images load, the booted state has status RUNNING and pc 0x3000, and the first step executes the word at
0x3000. If no image stores a word to 0x3000 (in the mode P_LOAD_OVERFLOW has, open, D18, log 16), that word of the
booted memory is 0x0000 and the first step changes nothing but pc. What the rest of the booted state holds is in
ImagesLoadInSequenceOrNotAtAll. [R140] -/
def Obligations.BootStartsAt3000WhateverTheImages : Prop :=
  ∀ (files : List ImageFile) (s : State), boot files = .ok s →
    s.status = .running ∧ s.pc = 0x3000 ∧
    step s = exec (decode (s.mem.read 0x3000)) { s with pc := 0x3001 } ∧
    ((∀ f ∈ files, ¬ imageWrites f 0x3000) →
      s.mem.read 0x3000 = 0 ∧ step s = .next { s with pc := 0x3001 })

/-- The bytes of an image, big-endian, origin first, parse to that origin and those words; when they fit below 0x10000,
loading puts word k at origin + k and leaves every other cell as it was, so an image of only an origin changes no
cell. [R141] -/
def Obligations.ImageWordsAreLoadedFromOrigin : Prop :=
  ∀ (origin : Word) (ws : List Word),
    parseImage (some (imageBytes origin ws)) = .ok (origin, ws) ∧
    (origin.toNat + ws.length ≤ 65536 → ∀ (mode : LoadOverflow) (m : Memory) (a : Word),
      (loadWords mode origin.toNat ws m).read a =
        if origin.toNat ≤ a.toNat ∧ a.toNat < origin.toNat + ws.length then ws.getD (a.toNat - origin.toNat) 0
        else m.read a)

/-- For an image of any length at any origin, a cell holds after loading the last word k with origin + k equal to it
modulo 2^16, where with truncate only words with origin + k below 0x10000 count; a cell with no such word is
unchanged (rule R142; the mode is the open parameter P_LOAD_OVERFLOW, log 16). [70_reset_and_hazards.md section 1,
92_eei_decisions.md D18] -/
def Obligations.LoadingPastTheTopDropsOrWraps : Prop :=
  ∀ (mode : LoadOverflow) (origin : Nat) (ws : List Word) (m : Memory) (a : Word),
    (loadWords mode origin ws m).read a =
      match ((List.range ws.length).filter (fun k =>
        (decide (origin + k < 65536) || mode == .wrap) && BitVec.ofNat 16 (origin + k) == a)).getLast? with
      | some k => ws.getD k 0
      | none => m.read a

/-- Loading an image that parses stores its words from its origin (rule R141; past 0xFFFF as P_LOAD_OVERFLOW says, log
16), loading one that does not parse fails with its error (rule R137; the errors of U5 are log 30), and loading a
list is loading its first part and then the rest on that memory (rule R143). With at least one image, the run boots
exactly when all load, in the reset state with the loaded memory: registers zero, cond NONE (C2, D2, log 2), pc
0x3000, RUNNING, no output (rules R40, R139); with none, or when one fails, it does not boot (rules R136, R137).
[70_reset_and_hazards.md section 1, 60_exceptions.md section 6, 10_state.md section 8] -/
def Obligations.ImagesLoadInSequenceOrNotAtAll : Prop :=
  (∀ m : Memory, loadImages [] m = .ok m) ∧
    (∀ (f : ImageFile) (origin : Word) (ws : List Word) (m : Memory), parseImage f = .ok (origin, ws) →
      loadImages [f] m = .ok (loadWords Config.loadOverflow origin.toNat ws m)) ∧
    (∀ (f : ImageFile) (e : BootError) (m : Memory), parseImage f = .error e → loadImages [f] m = .error e) ∧
    (∀ (fs gs : List ImageFile) (m : Memory),
      loadImages (fs ++ gs) m = match loadImages fs m with
        | .error e => .error e
        | .ok m' => loadImages gs m') ∧
    boot [] = .error .noImage ∧
    (∀ (files : List ImageFile) (m : Memory), files ≠ [] → loadImages files State.reset.mem = .ok m →
      boot files = .ok { State.reset with mem := m }) ∧
    (∀ (files : List ImageFile) (e : BootError), files ≠ [] → loadImages files State.reset.mem = .error e →
      boot files = .error e) ∧
    ∀ (files : List ImageFile) (s : State), boot files = .ok s →
      files ≠ [] ∧ s = { State.reset with mem := s.mem } ∧ ∀ f ∈ files, ∃ image, parseImage f = .ok image

/-- The host's signal at a step boundary makes a RUNNING machine TERMINATED with the rest of the state as it was, after
which no run of steps changes it; a HALTED machine stays HALTED (D20). That the rest survives the signal is the
model's choice (log 18), and so is that a step of a stopped machine answers the state itself (log 21).
[60_exceptions.md section 6, 92_eei_decisions.md D20] -/
def Obligations.SignalEndsTheRunAtABoundary : Prop :=
  ∀ (n : Nat) (s : State),
    s.hostTerminate = { s with status := if s.status = .running then .terminated else s.status } ∧
    Sys2Proof.core.run n s.hostTerminate = .next s.hostTerminate
end

