-- ==== Sys2Proof/Laws/Decode.lean ====
section
/-! SUPPORT. Laws/Decode.lean: reading a field of a word put together from fields, and the extensions of R13. -/

namespace Sys2Proof

@[simp] theorem bit_or (a b : Word) (i : Nat) : bit (a ||| b) i = (bit a i || bit b i) := by
  simp [bit]

/-- One bit of a word that holds one field. -/
theorem bit_put {n : Nat} (lo : Nat) (v : BitVec n) (i : Nat) :
    bit (put lo v) i = (decide (i < 16) && decide (lo ≤ i) && v.getLsbD (i - lo)) := by
  by_cases h : lo ≤ i <;> by_cases h2 : i < 16 <;>
    simp [bit, put, BitVec.getLsbD_shiftLeft, BitVec.getLsbD_setWidth, h, h2]

theorem getLsbD_field (w : Word) (lo n i : Nat) : (field w lo n).getLsbD i = (decide (i < n) && bit w (lo + i)) := by
  simp [field, bit]

@[simp] theorem field_or (a b : Word) (lo n : Nat) : field (a ||| b) lo n = field a lo n ||| field b lo n := by
  apply BitVec.eq_of_getLsbD_eq
  intro i hi
  simp only [BitVec.getLsbD_or, getLsbD_field, bit_or, hi, decide_true, Bool.true_and]

/-- A field reads back what was put there. -/
theorem field_put_self {n lo : Nat} (v : BitVec n) (h : lo + n ≤ 16) : field (put lo v) lo n = v := by
  apply BitVec.eq_of_getLsbD_eq
  intro i hi
  have h2 : lo + i < 16 := by omega
  simp only [getLsbD_field, bit_put, hi, h2, decide_true, Bool.true_and, Nat.le_add_right, Nat.add_sub_cancel_left]

/-- A field put above the one read does not show in it. -/
theorem field_put_above {m : Nat} {lo lo' n : Nat} (v : BitVec m) (h : lo + n ≤ lo') : field (put lo' v) lo n = 0 := by
  apply BitVec.eq_of_getLsbD_eq
  intro i hi
  have h2 : ¬ lo' ≤ lo + i := by omega
  simp [getLsbD_field, bit_put, h2]

/-- A field put below the one read does not show in it. -/
theorem field_put_below {m : Nat} {lo lo' n : Nat} (v : BitVec m) (h : lo' + m ≤ lo) : field (put lo' v) lo n = 0 := by
  apply BitVec.eq_of_getLsbD_eq
  intro i hi
  have h2 : v.getLsbD (lo + i - lo') = false := BitVec.getLsbD_of_ge _ _ (by omega)
  simp [getLsbD_field, bit_put, h2]

@[simp] theorem regBits_regField (w : Word) (lo : Nat) : regBits (regField w lo) = field w lo 3 := rfl

@[simp] theorem toFin_regBits (r : Reg) : (regBits r).toFin = r := rfl

/-- Cutting a value that fits a signed field to the field, and extending it again, gives it back (R13, R80). -/
theorem sext_setWidth {n : Nat} {v : Word} (hn : n = 5 ∨ n = 6 ∨ n = 9 ∨ n = 11) (h : fitsSigned n v = true) :
    sext (v.setWidth n) = v := by
  simp only [fitsSigned, Bool.and_eq_true, decide_eq_true_eq] at h
  apply BitVec.eq_of_toInt_eq
  have h1 : -32768 ≤ v.toInt := BitVec.le_toInt v
  have h2 : v.toInt < 32768 := BitVec.toInt_lt
  have h3 := BitVec.toInt_eq_toNat_bmod v
  rw [sext, BitVec.toInt_signExtend_of_le (by rcases hn with rfl | rfl | rfl | rfl <;> norm_num),
    BitVec.toInt_setWidth, Int.bmod_def]
  rw [Int.bmod_def] at h3
  rcases hn with rfl | rfl | rfl | rfl <;>
  · norm_num at h h3 ⊢
    omega

end Sys2Proof
end

