-- ==== Sys2Proof/Laws/Memory.lean ====
section
/-! SUPPORT. Laws/Memory.lean: the laws of the backing store: read after write, and the canonical form is kept. -/

namespace Sys2Proof.Machine

theorem Memory.byte_filter_ne (m : Memory) {k j : Nat} (h : j ≠ k) :
    Memory.byte (m.filter (fun c => c.1 != k)) j = m.byte j := by
  induction m with
  | nil => rfl
  | cons c m ih =>
    by_cases hc : c.1 = k
    · have hj : c.1 ≠ j := fun e => h (e.symm.trans hc)
      simp [hc, Memory.byte, ih, h.symm]
    · simp [hc, Memory.byte, ih]

theorem Memory.byte_filter_self (m : Memory) (k : Nat) :
    Memory.byte (m.filter (fun c => c.1 != k)) k = 0 := by
  induction m with
  | nil => rfl
  | cons c m ih =>
    by_cases hc : c.1 = k
    · simp [hc, ih]
    · simp [hc, Memory.byte, ih]

theorem Memory.byte_insertCell_ne (c : Host.Cell) (m : Memory) {j : Nat} (h : j ≠ c.1) :
    Memory.byte (Memory.insertCell c m) j = m.byte j := by
  induction m with
  | nil => simp [Memory.insertCell, Memory.byte, h.symm]
  | cons d m ih =>
    unfold Memory.insertCell
    split
    · simp [Memory.byte, h.symm]
    · simp [Memory.byte, ih]

theorem Memory.byte_insertCell_self (c : Host.Cell) (m : Memory) (h : ∀ d ∈ m, d.1 ≠ c.1) :
    Memory.byte (Memory.insertCell c m) c.1 = c.2 := by
  induction m with
  | nil => simp [Memory.insertCell, Memory.byte]
  | cons d m ih =>
    unfold Memory.insertCell
    split
    · simp [Memory.byte]
    · simp [Memory.byte, h d, ih (fun e he => h e (List.mem_cons_of_mem _ he))]

/-- Reading one byte after writing one byte. -/
theorem Memory.byte_setByte (m : Memory) (k : Nat) (v : Byte) (j : Nat) :
    (m.setByte k v).byte j = if j = k then v else m.byte j := by
  have hmem : ∀ d ∈ m.filter (fun c => c.1 != k), d.1 ≠ k := by
    intro d hd
    simpa using (List.mem_filter.mp hd).2
  by_cases hj : j = k
  · subst hj
    rw [if_pos rfl]
    by_cases hv : v = 0
    · rw [Memory.setByte, if_pos hv, hv, Memory.byte_filter_self]
    · rw [Memory.setByte, if_neg hv]
      exact Memory.byte_insertCell_self (j, v) _ hmem
  · rw [if_neg hj]
    by_cases hv : v = 0
    · rw [Memory.setByte, if_pos hv, Memory.byte_filter_ne m hj]
    · rw [Memory.setByte, if_neg hv, Memory.byte_insertCell_ne (k, v) _ hj, Memory.byte_filter_ne m hj]

/-- The two bytes of a word, high byte first, are the word. -/
theorem append_fields (v : Word) : (field v 8 8 ++ field v 0 8 : BitVec 16) = v := by
  ext i hi
  simp only [field, BitVec.getElem_append, BitVec.getElem_extractLsb']
  split
  · simp [BitVec.getLsbD_eq_getElem, hi]
  · have h : 8 + (i - 8) = i := by omega
    rw [h, BitVec.getLsbD_eq_getElem hi]

/-- Reading one cell after writing one cell (20_memory.md R48, R55). -/
theorem Memory.read_write (m : Memory) (a v b : Word) :
    (m.write a v).read b = if b = a then v else m.read b := by
  have e1 : 2 * b.toNat ≠ 2 * a.toNat + 1 := by omega
  have e2 : 2 * b.toNat + 1 ≠ 2 * a.toNat := by omega
  simp only [Memory.read, Memory.write, Memory.byte_setByte, e1, e2, if_false]
  by_cases h : b = a
  · subst h
    simpa using append_fields v
  · have h' : b.toNat ≠ a.toNat := fun e => h (BitVec.eq_of_toNat_eq e)
    simp [h, h']

/-! ## The canonical form -/

theorem Memory.mem_insertCell (c d : Host.Cell) (m : Memory) :
    d ∈ Memory.insertCell c m ↔ d = c ∨ d ∈ m := by
  induction m with
  | nil => simp [Memory.insertCell]
  | cons e m ih =>
    unfold Memory.insertCell
    split
    · simp
    · simp only [List.mem_cons, ih]; tauto

theorem Memory.insertCell_sorted (c : Host.Cell) (m : Memory) (h : m.Pairwise (fun c d => c.1 < d.1))
    (hne : ∀ d ∈ m, d.1 ≠ c.1) : (Memory.insertCell c m).Pairwise (fun c d => c.1 < d.1) := by
  induction m with
  | nil => simp [Memory.insertCell]
  | cons d m ih =>
    have hd := List.pairwise_cons.mp h
    unfold Memory.insertCell
    split
    · next hlt =>
      refine List.pairwise_cons.mpr ⟨?_, h⟩
      intro e he
      rcases List.mem_cons.mp he with rfl | he
      · exact hlt
      · exact hlt.trans (hd.1 e he)
    · next hge =>
      have hdc : d.1 ≠ c.1 := hne d (List.mem_cons_self ..)
      refine List.pairwise_cons.mpr ⟨?_, ih hd.2 (fun e he => hne e (List.mem_cons_of_mem _ he))⟩
      intro e he
      rcases (Memory.mem_insertCell c e m).mp he with rfl | he
      · omega
      · exact hd.1 e he

/-- A byte write keeps the canonical form. -/
theorem Memory.wf_setByte {m : Memory} (h : m.wf) {k : Nat} (hk : k < 131072) (v : Byte) :
    (m.setByte k v).wf := by
  have hp := h.1.filter (fun c => c.1 != k)
  have hm : ∀ c ∈ m.filter (fun c => c.1 != k), c.1 < 131072 ∧ c.2 ≠ 0 :=
    fun c hc => h.2 c (List.mem_filter.mp hc).1
  by_cases hv : v = 0
  · rw [Memory.setByte, if_pos hv]
    exact ⟨hp, hm⟩
  · rw [Memory.setByte, if_neg hv]
    refine ⟨Memory.insertCell_sorted _ _ hp (fun d hd => by simpa using (List.mem_filter.mp hd).2), ?_⟩
    intro d hd
    rcases (Memory.mem_insertCell _ d _).mp hd with rfl | hd
    · exact ⟨hk, hv⟩
    · exact hm d hd

/-- A cell write keeps the canonical form. -/
theorem Memory.wf_write {m : Memory} (h : m.wf) (a v : Word) : (m.write a v).wf := by
  have ha : a.toNat < 65536 := a.isLt
  exact Memory.wf_setByte (Memory.wf_setByte h (by omega) _) (by omega) _

end Sys2Proof.Machine
end

