-- ==== Sys2Proof/Laws/State.lean ====
section
/-! SUPPORT. Laws/State.lean: what each update of the state does to each field, one lemma per field and update. -/

namespace Sys2Proof.Machine

@[simp] theorem State.setReg_regs (s : State) (r : Reg) (v : Word) : (s.setReg r v).regs = s.regs.set r.val v := rfl
@[simp] theorem State.setReg_pc (s : State) (r : Reg) (v : Word) : (s.setReg r v).pc = s.pc := rfl
@[simp] theorem State.setReg_cond (s : State) (r : Reg) (v : Word) : (s.setReg r v).cond = s.cond := rfl
@[simp] theorem State.setReg_status (s : State) (r : Reg) (v : Word) : (s.setReg r v).status = s.status := rfl
@[simp] theorem State.setReg_mem (s : State) (r : Reg) (v : Word) : (s.setReg r v).mem = s.mem := rfl
@[simp] theorem State.setReg_input (s : State) (r : Reg) (v : Word) : (s.setReg r v).input = s.input := rfl
@[simp] theorem State.setReg_polls (s : State) (r : Reg) (v : Word) : (s.setReg r v).polls = s.polls := rfl
@[simp] theorem State.setReg_pollCount (s : State) (r : Reg) (v : Word) : (s.setReg r v).pollCount = s.pollCount := rfl
@[simp] theorem State.setReg_output (s : State) (r : Reg) (v : Word) : (s.setReg r v).output = s.output := rfl

@[simp] theorem State.setPc_regs (s : State) (v : Word) : (s.setPc v).regs = s.regs := rfl
@[simp] theorem State.setPc_pc (s : State) (v : Word) : (s.setPc v).pc = v := rfl
@[simp] theorem State.setPc_cond (s : State) (v : Word) : (s.setPc v).cond = s.cond := rfl
@[simp] theorem State.setPc_status (s : State) (v : Word) : (s.setPc v).status = s.status := rfl
@[simp] theorem State.setPc_mem (s : State) (v : Word) : (s.setPc v).mem = s.mem := rfl
@[simp] theorem State.setPc_input (s : State) (v : Word) : (s.setPc v).input = s.input := rfl
@[simp] theorem State.setPc_polls (s : State) (v : Word) : (s.setPc v).polls = s.polls := rfl
@[simp] theorem State.setPc_pollCount (s : State) (v : Word) : (s.setPc v).pollCount = s.pollCount := rfl
@[simp] theorem State.setPc_output (s : State) (v : Word) : (s.setPc v).output = s.output := rfl

@[simp] theorem State.memWrite_regs (s : State) (a v : Word) : (s.memWrite a v).regs = s.regs := rfl
@[simp] theorem State.memWrite_pc (s : State) (a v : Word) : (s.memWrite a v).pc = s.pc := rfl
@[simp] theorem State.memWrite_cond (s : State) (a v : Word) : (s.memWrite a v).cond = s.cond := rfl
@[simp] theorem State.memWrite_status (s : State) (a v : Word) : (s.memWrite a v).status = s.status := rfl
@[simp] theorem State.memWrite_mem (s : State) (a v : Word) : (s.memWrite a v).mem = s.mem.write a v := rfl
@[simp] theorem State.memWrite_input (s : State) (a v : Word) : (s.memWrite a v).input = s.input := rfl
@[simp] theorem State.memWrite_polls (s : State) (a v : Word) : (s.memWrite a v).polls = s.polls := rfl
@[simp] theorem State.memWrite_pollCount (s : State) (a v : Word) : (s.memWrite a v).pollCount = s.pollCount := rfl
@[simp] theorem State.memWrite_output (s : State) (a v : Word) : (s.memWrite a v).output = s.output := rfl

@[simp] theorem State.out_regs (s : State) (bs : List Byte) : (s.out bs).regs = s.regs := rfl
@[simp] theorem State.out_pc (s : State) (bs : List Byte) : (s.out bs).pc = s.pc := rfl
@[simp] theorem State.out_cond (s : State) (bs : List Byte) : (s.out bs).cond = s.cond := rfl
@[simp] theorem State.out_status (s : State) (bs : List Byte) : (s.out bs).status = s.status := rfl
@[simp] theorem State.out_mem (s : State) (bs : List Byte) : (s.out bs).mem = s.mem := rfl
@[simp] theorem State.out_input (s : State) (bs : List Byte) : (s.out bs).input = s.input := rfl
@[simp] theorem State.out_polls (s : State) (bs : List Byte) : (s.out bs).polls = s.polls := rfl
@[simp] theorem State.out_pollCount (s : State) (bs : List Byte) : (s.out bs).pollCount = s.pollCount := rfl
@[simp] theorem State.out_output (s : State) (bs : List Byte) : (s.out bs).output = s.output ++ bs := rfl

@[simp] theorem State.halt_regs (s : State) : s.halt.regs = s.regs := rfl
@[simp] theorem State.halt_pc (s : State) : s.halt.pc = s.pc := rfl
@[simp] theorem State.halt_cond (s : State) : s.halt.cond = s.cond := rfl
@[simp] theorem State.halt_status (s : State) : s.halt.status = RunStatus.halted := rfl
@[simp] theorem State.halt_mem (s : State) : s.halt.mem = s.mem := rfl
@[simp] theorem State.halt_input (s : State) : s.halt.input = s.input := rfl
@[simp] theorem State.halt_polls (s : State) : s.halt.polls = s.polls := rfl
@[simp] theorem State.halt_pollCount (s : State) : s.halt.pollCount = s.pollCount := rfl
@[simp] theorem State.halt_output (s : State) : s.halt.output = s.output := rfl

@[simp] theorem State.setcc_regs (s : State) (v : Word) : (s.setcc v).regs = s.regs := rfl
@[simp] theorem State.setcc_pc (s : State) (v : Word) : (s.setcc v).pc = s.pc := rfl
@[simp] theorem State.setcc_cond (s : State) (v : Word) : (s.setcc v).cond = condOf v := rfl
@[simp] theorem State.setcc_status (s : State) (v : Word) : (s.setcc v).status = s.status := rfl
@[simp] theorem State.setcc_mem (s : State) (v : Word) : (s.setcc v).mem = s.mem := rfl
@[simp] theorem State.setcc_input (s : State) (v : Word) : (s.setcc v).input = s.input := rfl
@[simp] theorem State.setcc_polls (s : State) (v : Word) : (s.setcc v).polls = s.polls := rfl
@[simp] theorem State.setcc_pollCount (s : State) (v : Word) : (s.setcc v).pollCount = s.pollCount := rfl
@[simp] theorem State.setcc_output (s : State) (v : Word) : (s.setcc v).output = s.output := rfl

@[simp] theorem State.reg_setPc (s : State) (v : Word) (r : Reg) : (s.setPc v).reg r = s.reg r := rfl
@[simp] theorem State.reg_memWrite (s : State) (a v : Word) (r : Reg) : (s.memWrite a v).reg r = s.reg r := rfl
@[simp] theorem State.reg_out (s : State) (bs : List Byte) (r : Reg) : (s.out bs).reg r = s.reg r := rfl
@[simp] theorem State.reg_halt (s : State) (r : Reg) : s.halt.reg r = s.reg r := rfl
@[simp] theorem State.reg_setcc (s : State) (v : Word) (r : Reg) : (s.setcc v).reg r = s.reg r := rfl

/-- Reading the register just written gives the value written. -/
@[simp] theorem State.reg_setReg_self (s : State) (r : Reg) (v : Word) : (s.setReg r v).reg r = v := by
  simp [State.reg, State.setReg]

/-- A write leaves every other register alone. -/
theorem State.reg_setReg_ne (s : State) {r r' : Reg} (v : Word) (h : r' ≠ r) :
    (s.setReg r v).reg r' = s.reg r' := by
  have h' : r.val ≠ r'.val := fun e => h (Fin.ext e.symm)
  simp [State.reg, State.setReg, Vector.getElem_set_ne, h']

/-- Writing a register's own value back changes nothing. -/
theorem State.setReg_reg_self (s : State) (r : Reg) : s.setReg r (s.reg r) = s := by
  simp [State.reg, State.setReg]

/-- A result and its flags: DR holds the value, the flags are the value's, nothing else changes. -/
theorem State.writeResult_eq (s : State) (dr : Reg) (v : Word) :
    s.writeResult dr v = { s with regs := s.regs.set dr.val v, cond := condOf v } := by
  unfold State.writeResult State.setcc
  rw [State.reg_setReg_self]
  rfl

/-- TRAP entry writes R7, and only it, when the parameter says so (R127). -/
theorem State.trapEntry_eq (s : State) :
    s.trapEntry = if Config.trapLinkR7 = true then s.setReg 7 s.pc else s := by
  unfold State.trapEntry
  split
  · rfl
  · exact State.setReg_reg_self s 7

@[simp] theorem State.inputFlags_regs (s : State) : s.inputFlags.regs = s.regs := rfl
@[simp] theorem State.inputFlags_pc (s : State) : s.inputFlags.pc = s.pc := rfl
@[simp] theorem State.inputFlags_status (s : State) : s.inputFlags.status = s.status := rfl
@[simp] theorem State.inputFlags_mem (s : State) : s.inputFlags.mem = s.mem := rfl
@[simp] theorem State.inputFlags_input (s : State) : s.inputFlags.input = s.input := rfl
@[simp] theorem State.inputFlags_polls (s : State) : s.inputFlags.polls = s.polls := rfl
@[simp] theorem State.inputFlags_pollCount (s : State) : s.inputFlags.pollCount = s.pollCount := rfl
@[simp] theorem State.inputFlags_output (s : State) : s.inputFlags.output = s.output := rfl
@[simp] theorem State.reg_inputFlags (s : State) (r : Reg) : s.inputFlags.reg r = s.reg r := rfl

@[simp] theorem State.trapEntry_pc (s : State) : s.trapEntry.pc = s.pc := rfl
@[simp] theorem State.trapEntry_cond (s : State) : s.trapEntry.cond = s.cond := rfl
@[simp] theorem State.trapEntry_status (s : State) : s.trapEntry.status = s.status := rfl
@[simp] theorem State.trapEntry_mem (s : State) : s.trapEntry.mem = s.mem := rfl
@[simp] theorem State.trapEntry_input (s : State) : s.trapEntry.input = s.input := rfl
@[simp] theorem State.trapEntry_polls (s : State) : s.trapEntry.polls = s.polls := rfl
@[simp] theorem State.trapEntry_pollCount (s : State) : s.trapEntry.pollCount = s.pollCount := rfl
@[simp] theorem State.trapEntry_output (s : State) : s.trapEntry.output = s.output := rfl

/-- With the parameter set, R7 holds the incremented pc after TRAP entry. -/
theorem State.trapEntry_reg7_linked {s : State} (h : Config.trapLinkR7 = true) : s.trapEntry.reg 7 = s.pc := by
  rw [State.trapEntry_eq, if_pos h, State.reg_setReg_self]

/-! ## What a fault leaves of the console (log 14): only input and output count -/

@[simp] theorem State.setReg_console (s : State) (r : Reg) (v : Word) : (s.setReg r v).console = s.console := rfl
@[simp] theorem State.setPc_console (s : State) (v : Word) : (s.setPc v).console = s.console := rfl
@[simp] theorem State.memWrite_console (s : State) (a v : Word) : (s.memWrite a v).console = s.console := rfl
@[simp] theorem State.setcc_console (s : State) (v : Word) : (s.setcc v).console = s.console := rfl
@[simp] theorem State.halt_console (s : State) : (s.halt).console = s.console := rfl
@[simp] theorem State.inputFlags_console (s : State) : (s.inputFlags).console = s.console := rfl
@[simp] theorem State.trapEntry_console (s : State) : (s.trapEntry).console = s.console := rfl

end Sys2Proof.Machine
end

