-- ==== Sys2Proof/Laws/Ops.lean ====
section
/-! SUPPORT. Laws/Ops.lean: for each shared operation, what it can do; a proof cites these and unfolds no operation. -/

namespace Sys2Proof.Machine

/-! ## The keyboard -/

/-- A draw takes the head of `polls`, or the next free value; nothing else changes. -/
theorem State.drawPoll_cases (s : State) :
    (∃ r rs, s.polls = r :: rs ∧ s.drawPoll = (r, { s with polls := rs })) ∨
    (s.polls = [] ∧ s.drawPoll = (Config.pollReady s.pollCount, { s with pollCount := s.pollCount + 1 })) := by
  unfold State.drawPoll
  cases h : s.polls with
  | nil => exact .inr ⟨rfl, rfl⟩
  | cons r rs => exact .inl ⟨r, rs, rfl, rfl⟩

/-- The next input byte, or none and no change. -/
theorem State.takeInput_cases (s : State) :
    (∃ b bs, s.input = b :: bs ∧ s.takeInput = (some b, { s with input := bs })) ∨
    (s.input = [] ∧ s.takeInput = (none, s)) := by
  unfold State.takeInput
  cases h : s.input with
  | nil => exact .inr ⟨rfl, rfl⟩
  | cons b bs => exact .inl ⟨b, bs, rfl, rfl⟩

/-- What a poll does: it answers ready with the first input byte and consumes it, or not ready; besides the input only the
draw's own fields change. -/
theorem State.kbPoll_cases (s : State) : ∃ ps n,
    (∃ b bs, s.input = b :: bs ∧ s.kbPoll = (some b, { s with input := bs, polls := ps, pollCount := n })) ∨
    s.kbPoll = (none, { s with polls := ps, pollCount := n }) := by
  unfold State.kbPoll
  obtain ⟨r, rs, hp, hd⟩ | ⟨hp, hd⟩ := s.drawPoll_cases
  · refine ⟨rs, s.pollCount, ?_⟩
    rw [hd]
    cases r with
    | false => exact .inr rfl
    | true =>
      obtain ⟨b, bs, hi, ht⟩ | ⟨hi, ht⟩ := State.takeInput_cases { s with polls := rs }
      · exact .inl ⟨b, bs, hi, by simpa using ht⟩
      · exact .inr (by simpa using ht)
  · refine ⟨s.polls, s.pollCount + 1, ?_⟩
    rw [hd]
    cases hr : Config.pollReady s.pollCount with
    | false => exact .inr rfl
    | true =>
      obtain ⟨b, bs, hi, ht⟩ | ⟨hi, ht⟩ := State.takeInput_cases { s with pollCount := s.pollCount + 1 }
      · exact .inl ⟨b, bs, hi, by simpa using ht⟩
      · exact .inr (by simpa using ht)

/-- What the poll of a KBSR read leaves (R50): ready, the two cells rewritten and one byte consumed; or not ready, KBSR
zero. -/
theorem State.pollKeyboard_cases (s : State) : ∃ ps n,
    (∃ b bs, s.input = b :: bs ∧ s.pollKeyboard =
      { s with input := bs, polls := ps, pollCount := n,
               mem := (s.mem.write kbsrAddr kbsrReady).write kbdrAddr (zext b) }) ∨
    s.pollKeyboard = { s with polls := ps, pollCount := n, mem := s.mem.write kbsrAddr 0 } := by
  obtain ⟨ps, n, ⟨b, bs, hi, hk⟩ | hk⟩ := s.kbPoll_cases
  · exact ⟨ps, n, .inl ⟨b, bs, hi, by simp [State.pollKeyboard, hk, State.memWrite]⟩⟩
  · exact ⟨ps, n, .inr (by simp [State.pollKeyboard, hk, State.memWrite])⟩

/-! ## The memory interface -/

/-- A read away from KBSR has no effect (R49). -/
theorem State.memRead_plain (s : State) {a : Word} (h : a ≠ kbsrAddr) : s.memRead a = (s.mem.read a, s) := by
  simp [State.memRead, h]

/-- A read of KBSR polls first (R50). -/
theorem State.memRead_kbsr (s : State) :
    s.memRead kbsrAddr = (s.pollKeyboard.mem.read kbsrAddr, s.pollKeyboard) := by
  simp [State.memRead]

/-- All a read can do to the state. -/
theorem State.memRead_cases (s : State) (a : Word) :
    (s.memRead a).2 = s ∨ (a = kbsrAddr ∧ (s.memRead a).2 = s.pollKeyboard) := by
  by_cases h : a = kbsrAddr
  · exact .inr ⟨h, by simp [State.memRead, h]⟩
  · exact .inl (by simp [State.memRead, h])

@[simp] theorem State.pollKeyboard_regs (s : State) : s.pollKeyboard.regs = s.regs := by
  obtain ⟨ps, n, ⟨b, bs, -, h⟩ | h⟩ := s.pollKeyboard_cases <;> rw [h]
@[simp] theorem State.pollKeyboard_pc (s : State) : s.pollKeyboard.pc = s.pc := by
  obtain ⟨ps, n, ⟨b, bs, -, h⟩ | h⟩ := s.pollKeyboard_cases <;> rw [h]
@[simp] theorem State.pollKeyboard_cond (s : State) : s.pollKeyboard.cond = s.cond := by
  obtain ⟨ps, n, ⟨b, bs, -, h⟩ | h⟩ := s.pollKeyboard_cases <;> rw [h]
@[simp] theorem State.pollKeyboard_status (s : State) : s.pollKeyboard.status = s.status := by
  obtain ⟨ps, n, ⟨b, bs, -, h⟩ | h⟩ := s.pollKeyboard_cases <;> rw [h]
@[simp] theorem State.pollKeyboard_output (s : State) : s.pollKeyboard.output = s.output := by
  obtain ⟨ps, n, ⟨b, bs, -, h⟩ | h⟩ := s.pollKeyboard_cases <;> rw [h]

@[simp] theorem State.memRead_regs (s : State) (a : Word) : (s.memRead a).2.regs = s.regs := by
  obtain h | ⟨-, h⟩ := s.memRead_cases a <;> simp [h]
@[simp] theorem State.memRead_pc (s : State) (a : Word) : (s.memRead a).2.pc = s.pc := by
  obtain h | ⟨-, h⟩ := s.memRead_cases a <;> simp [h]
@[simp] theorem State.memRead_cond (s : State) (a : Word) : (s.memRead a).2.cond = s.cond := by
  obtain h | ⟨-, h⟩ := s.memRead_cases a <;> simp [h]
@[simp] theorem State.memRead_status (s : State) (a : Word) : (s.memRead a).2.status = s.status := by
  obtain h | ⟨-, h⟩ := s.memRead_cases a <;> simp [h]
@[simp] theorem State.memRead_output (s : State) (a : Word) : (s.memRead a).2.output = s.output := by
  obtain h | ⟨-, h⟩ := s.memRead_cases a <;> simp [h]

/-- A read consumes input only from the front of the stream (R34). -/
theorem State.memRead_input_suffix (s : State) (a : Word) : (s.memRead a).2.input <:+ s.input := by
  obtain h | ⟨-, h⟩ := s.memRead_cases a
  · rw [h]
  · obtain ⟨ps, n, ⟨b, bs, hi, hp⟩ | hp⟩ := s.pollKeyboard_cases
    · rw [h, hp, hi]; exact List.suffix_cons b bs
    · rw [h, hp]

/-- A read keeps memory canonical. -/
theorem State.memRead_wf {s : State} (hw : s.mem.wf) (a : Word) : (s.memRead a).2.mem.wf := by
  obtain h | ⟨-, h⟩ := s.memRead_cases a
  · rwa [h]
  · obtain ⟨ps, n, ⟨b, bs, -, hp⟩ | hp⟩ := s.pollKeyboard_cases
    · rw [h, hp]; exact Memory.wf_write (Memory.wf_write hw kbsrAddr kbsrReady) kbdrAddr (zext b)
    · rw [h, hp]; exact Memory.wf_write hw kbsrAddr 0

/-- A read changes no cell but KBSR and KBDR. -/
theorem State.memRead_other_cells (s : State) (a : Word) {b : Word} (h1 : b ≠ kbsrAddr) (h2 : b ≠ kbdrAddr) :
    (s.memRead a).2.mem.read b = s.mem.read b := by
  obtain h | ⟨-, h⟩ := s.memRead_cases a
  · rw [h]
  · obtain ⟨ps, n, ⟨c, bs, -, hp⟩ | hp⟩ := s.pollKeyboard_cases <;> rw [h, hp] <;>
      simp [Memory.read_write, h1, h2]

/-! ## Fetch -/

/-- A fetch away from KBSR reads the cell at pc and increments pc, and that is all. -/
theorem State.fetch_plain (s : State) (h : s.pc ≠ kbsrAddr) :
    s.fetch = (s.mem.read s.pc, { s with pc := s.pc + 1 }) := by
  simp [State.fetch, State.memRead_plain s h, State.setPc]

/-! ## The words of a string routine -/

/-- The read of R114, as the rule writes it. -/
theorem State.stringRead_eq (s : State) (a : Word) :
    s.stringRead a = if Config.trapStringReadPolls = true then s.memRead a else (s.mem.read a, s) := by
  by_cases h : a = kbsrAddr <;> by_cases hp : Config.trapStringReadPolls = true <;>
    simp [State.stringRead, h, hp, State.memRead]

/-- All a string read can do to the state. -/
theorem State.stringRead_cases (s : State) (a : Word) :
    (s.stringRead a).2 = s ∨ (a = kbsrAddr ∧ Config.trapStringReadPolls = true ∧ (s.stringRead a).2 = s.pollKeyboard) := by
  rw [State.stringRead_eq]
  by_cases hp : Config.trapStringReadPolls = true
  · rw [if_pos hp]
    obtain h | ⟨ha, h⟩ := s.memRead_cases a
    · exact .inl h
    · exact .inr ⟨ha, hp, h⟩
  · rw [if_neg hp]
    exact .inl rfl

end Sys2Proof.Machine
end

