-- ==== Sys2Proof/Laws/PerInstr.lean ====
section
/-! SUPPORT. Laws/PerInstr.lean: statements made instruction by instruction. Family OpcodeRow: the word of an instruction
selects exactly one row of the opcode table, the row of that instruction (spec/INDEX.md: the rows partition the words). -/

namespace Sys2Proof.Laws

/-! ## The masks of the table, as fields -/

theorem and_opMask (w : Word) : w &&& 0xF000 = put 12 (field w 12 4) := by
  apply BitVec.eq_of_getLsbD_eq
  intro i hi
  interval_cases i <;> simp [put, field]

theorem and_modeMask (w : Word) : w &&& 0xF800 = put 12 (field w 12 4) ||| put 11 (field w 11 1) := by
  apply BitVec.eq_of_getLsbD_eq
  intro i hi
  interval_cases i <;> simp [put, field]

theorem and_immMask (w : Word) : w &&& 0xF020 = put 12 (field w 12 4) ||| put 5 (field w 5 1) := by
  apply BitVec.eq_of_getLsbD_eq
  intro i hi
  interval_cases i <;> simp [put, field]

/-- The rows a word selects, from its opcode, its bit 11 and its bit 5. -/
def rowsOf (op : BitVec 4) (mode imm : BitVec 1) : List (String × String) :=
  (opcodeTable.filter (fun r =>
    (if r.mask = 0xF000 then put 12 op else if r.mask = 0xF800 then put 12 op ||| put 11 mode
      else put 12 op ||| put 5 imm) == r.pattern)).map (fun r => (r.mnemonic, r.format))

theorem selected_eq_rowsOf (w : Word) :
    (opcodeTable.filter (fun r => r.selects w)).map (fun r => (r.mnemonic, r.format)) =
      rowsOf (field w 12 4) (field w 11 1) (field w 5 1) := by
  have hm : ∀ r ∈ opcodeTable, r.mask = 0xF000 ∨ r.mask = 0xF800 ∨ r.mask = 0xF020 := by decide
  have h : ∀ r ∈ opcodeTable, r.selects w =
      ((if r.mask = 0xF000 then put 12 (field w 12 4)
        else if r.mask = 0xF800 then put 12 (field w 12 4) ||| put 11 (field w 11 1)
        else put 12 (field w 12 4) ||| put 5 (field w 5 1)) == r.pattern) := by
    intro r hr
    rw [OpcodeRow.selects]
    rcases hm r hr with e | e | e <;> rw [e]
    · rw [if_pos rfl, and_opMask]
    · rw [if_neg (by decide), if_pos rfl, and_modeMask]
    · rw [if_neg (by decide), if_neg (by decide), and_immMask]
  rw [rowsOf, List.filter_congr h]

namespace OpcodeRow

/-- The word of `i` selects exactly one row, the row of `i`. -/
def Statement (i : Instr) : Prop :=
  (opcodeTable.filter (fun r => r.selects (encode i))).map (fun r => (r.mnemonic, r.format)) = [(i.mnemonic, i.format)]

/-- A family member from its opcode, its bit 11 and its bit 5. -/
theorem of_fields {i : Instr} {op : BitVec 4} {mode imm : BitVec 1} (ho : field (encode i) 12 4 = op)
    (hm : field (encode i) 11 1 = mode) (hi : field (encode i) 5 1 = imm)
    (h : rowsOf op mode imm = [(i.mnemonic, i.format)]) : Statement i := by
  rw [Statement, selected_eq_rowsOf, ho, hm, hi, h]

theorem br (n : Bool) (z : Bool) (p : Bool) (off : Word) : Statement (.br n z p off) :=
  of_fields (op := 0b0000)
    (by simp (disch := omega) [encode, putOp, field_put_self, field_put_below]) rfl rfl
    (by show rowsOf _ _ _ = [("BR", "BR")]; generalize field _ 11 1 = m; generalize field _ 5 1 = k; revert m k; decide)

theorem addReg (dr : Reg) (sr1 : Reg) (sr2 : Reg) : Statement (.addReg dr sr1 sr2) :=
  of_fields (op := 0b0001) (imm := 0)
    (by simp (disch := omega) [encode, putOp, field_put_self, field_put_below]) rfl
    (by simp (disch := omega) [encode, putOp, field_put_above, field_put_below])
    (by show rowsOf _ _ _ = [("ADD", "OPR")]; generalize field _ 11 1 = m; revert m; decide)

theorem addImm (dr : Reg) (sr1 : Reg) (imm : Word) : Statement (.addImm dr sr1 imm) :=
  of_fields (op := 0b0001) (imm := 1)
    (by simp (disch := omega) [encode, putOp, field_put_self, field_put_below]) rfl
    (by simp (disch := omega) [encode, putOp, field_put_self, field_put_above, field_put_below])
    (by show rowsOf _ _ _ = [("ADD", "OPI")]; generalize field _ 11 1 = m; revert m; decide)

theorem ld (dr : Reg) (off : Word) : Statement (.ld dr off) :=
  of_fields (op := 0b0010)
    (by simp (disch := omega) [encode, putOp, field_put_self, field_put_below]) rfl rfl
    (by show rowsOf _ _ _ = [("LD", "PC9")]; generalize field _ 11 1 = m; generalize field _ 5 1 = k; revert m k; decide)

theorem st (sr : Reg) (off : Word) : Statement (.st sr off) :=
  of_fields (op := 0b0011)
    (by simp (disch := omega) [encode, putOp, field_put_self, field_put_below]) rfl rfl
    (by show rowsOf _ _ _ = [("ST", "PC9")]; generalize field _ 11 1 = m; generalize field _ 5 1 = k; revert m k; decide)

theorem jsr (off : Word) : Statement (.jsr off) :=
  of_fields (op := 0b0100) (mode := 1)
    (by simp (disch := omega) [encode, putOp, field_put_self, field_put_below])
    (by simp (disch := omega) [encode, putOp, field_put_self, field_put_above, field_put_below]) rfl
    (by show rowsOf _ _ _ = [("JSR", "JSR")]; generalize field _ 5 1 = m; revert m; decide)

theorem jsrr (base : Reg) : Statement (.jsrr base) :=
  of_fields (op := 0b0100) (mode := 0)
    (by simp (disch := omega) [encode, putOp, field_put_self, field_put_below])
    (by simp (disch := omega) [encode, putOp, field_put_above, field_put_below]) rfl
    (by show rowsOf _ _ _ = [("JSRR", "JSRR")]; generalize field _ 5 1 = m; revert m; decide)

theorem andReg (dr : Reg) (sr1 : Reg) (sr2 : Reg) : Statement (.andReg dr sr1 sr2) :=
  of_fields (op := 0b0101) (imm := 0)
    (by simp (disch := omega) [encode, putOp, field_put_self, field_put_below]) rfl
    (by simp (disch := omega) [encode, putOp, field_put_above, field_put_below])
    (by show rowsOf _ _ _ = [("AND", "OPR")]; generalize field _ 11 1 = m; revert m; decide)

theorem andImm (dr : Reg) (sr1 : Reg) (imm : Word) : Statement (.andImm dr sr1 imm) :=
  of_fields (op := 0b0101) (imm := 1)
    (by simp (disch := omega) [encode, putOp, field_put_self, field_put_below]) rfl
    (by simp (disch := omega) [encode, putOp, field_put_self, field_put_above, field_put_below])
    (by show rowsOf _ _ _ = [("AND", "OPI")]; generalize field _ 11 1 = m; revert m; decide)

theorem ldr (dr : Reg) (base : Reg) (off : Word) : Statement (.ldr dr base off) :=
  of_fields (op := 0b0110)
    (by simp (disch := omega) [encode, putOp, field_put_self, field_put_below]) rfl rfl
    (by show rowsOf _ _ _ = [("LDR", "BASE6")]; generalize field _ 11 1 = m; generalize field _ 5 1 = k; revert m k; decide)

theorem str (sr : Reg) (base : Reg) (off : Word) : Statement (.str sr base off) :=
  of_fields (op := 0b0111)
    (by simp (disch := omega) [encode, putOp, field_put_self, field_put_below]) rfl rfl
    (by show rowsOf _ _ _ = [("STR", "BASE6")]; generalize field _ 11 1 = m; generalize field _ 5 1 = k; revert m k; decide)

theorem rti : Statement .rti :=
  of_fields (op := 0b1000)
    (by simp (disch := omega) [encode, putOp, field_put_self]) rfl rfl
    (by show rowsOf _ _ _ = [("RTI", "FATAL")]; generalize field _ 11 1 = m; generalize field _ 5 1 = k; revert m k; decide)

theorem not (dr : Reg) (sr : Reg) : Statement (.not dr sr) :=
  of_fields (op := 0b1001)
    (by simp (disch := omega) [encode, putOp, field_put_self, field_put_below]) rfl rfl
    (by show rowsOf _ _ _ = [("NOT", "NOT")]; generalize field _ 11 1 = m; generalize field _ 5 1 = k; revert m k; decide)

theorem ldi (dr : Reg) (off : Word) : Statement (.ldi dr off) :=
  of_fields (op := 0b1010)
    (by simp (disch := omega) [encode, putOp, field_put_self, field_put_below]) rfl rfl
    (by show rowsOf _ _ _ = [("LDI", "PC9")]; generalize field _ 11 1 = m; generalize field _ 5 1 = k; revert m k; decide)

theorem sti (sr : Reg) (off : Word) : Statement (.sti sr off) :=
  of_fields (op := 0b1011)
    (by simp (disch := omega) [encode, putOp, field_put_self, field_put_below]) rfl rfl
    (by show rowsOf _ _ _ = [("STI", "PC9")]; generalize field _ 11 1 = m; generalize field _ 5 1 = k; revert m k; decide)

theorem jmp (base : Reg) : Statement (.jmp base) :=
  of_fields (op := 0b1100)
    (by simp (disch := omega) [encode, putOp, field_put_self, field_put_below]) rfl rfl
    (by show rowsOf _ _ _ = [("JMP", "JMP")]; generalize field _ 11 1 = m; generalize field _ 5 1 = k; revert m k; decide)

theorem res : Statement .res :=
  of_fields (op := 0b1101)
    (by simp (disch := omega) [encode, putOp, field_put_self]) rfl rfl
    (by show rowsOf _ _ _ = [("RES", "FATAL")]; generalize field _ 11 1 = m; generalize field _ 5 1 = k; revert m k; decide)

theorem lea (dr : Reg) (off : Word) : Statement (.lea dr off) :=
  of_fields (op := 0b1110)
    (by simp (disch := omega) [encode, putOp, field_put_self, field_put_below]) rfl rfl
    (by show rowsOf _ _ _ = [("LEA", "PC9")]; generalize field _ 11 1 = m; generalize field _ 5 1 = k; revert m k; decide)

theorem trap (v : BitVec 8) : Statement (.trap v) :=
  of_fields (op := 0b1111)
    (by simp (disch := omega) [encode, putOp, field_put_self, field_put_below]) rfl rfl
    (by show rowsOf _ _ _ = [("TRAP", "TRAP")]; generalize field _ 11 1 = m; generalize field _ 5 1 = k; revert m k; decide)

end OpcodeRow
end Sys2Proof.Laws
end

