-- ==== Sys2Proof/Laws/Walk.lean ====
section
/-! SUPPORT. Laws/Walk.lean: what the loop of PUTS and PUTSP can do, whatever its bytes and its fuel. -/

namespace Sys2Proof.Machine

/-- What a piece of a string walk leaves: registers, pc, flags and status alone, output longer, input shorter at its front,
memory canonical and, away from the keyboard's cells, unchanged. -/
structure WalkFrame (s t : State) : Prop where
  regs : t.regs = s.regs
  pc : t.pc = s.pc
  cond : t.cond = s.cond
  status : t.status = s.status
  output : s.output <+: t.output
  input : t.input <:+ s.input
  wf : s.mem.wf → t.mem.wf
  cells : ∀ a, a ≠ kbsrAddr → a ≠ kbdrAddr → t.mem.read a = s.mem.read a

theorem WalkFrame.rfl (s : State) : WalkFrame s s :=
  ⟨Eq.refl _, Eq.refl _, Eq.refl _, Eq.refl _, List.prefix_refl _, List.suffix_refl _, id, fun _ _ _ => Eq.refl _⟩

theorem WalkFrame.trans {s t u : State} (h : WalkFrame s t) (k : WalkFrame t u) : WalkFrame s u :=
  ⟨k.regs.trans h.regs, k.pc.trans h.pc, k.cond.trans h.cond, k.status.trans h.status, h.output.trans k.output,
    k.input.trans h.input, k.wf ∘ h.wf, fun a h1 h2 => (k.cells a h1 h2).trans (h.cells a h1 h2)⟩

theorem WalkFrame.out (s : State) (bs : List Byte) : WalkFrame s (s.out bs) :=
  ⟨Eq.refl _, Eq.refl _, Eq.refl _, Eq.refl _, List.prefix_append _ _, List.suffix_refl _, id, fun _ _ _ => Eq.refl _⟩

theorem WalkFrame.stringRead (s : State) (a : Word) : WalkFrame s (s.stringRead a).2 := by
  obtain h | ⟨-, -, h⟩ := s.stringRead_cases a
  · rw [h]; exact WalkFrame.rfl s
  · have hm : s.pollKeyboard = (s.memRead kbsrAddr).2 := by rw [State.memRead_kbsr]
    rw [h, hm]
    exact ⟨State.memRead_regs .., State.memRead_pc .., State.memRead_cond .., State.memRead_status ..,
      by simp, State.memRead_input_suffix .., fun hw => State.memRead_wf hw _,
      fun b h1 h2 => State.memRead_other_cells s _ h1 h2⟩

/-- The frame of the whole loop. -/
theorem stringWalk_frame (bytes : Word → List Byte) (fuel : Nat) (a : Word) (s t : State)
    (h : stringWalk bytes fuel a s = some t) : WalkFrame s t := by
  induction fuel generalizing a s with
  | zero => exact absurd h (by simp [stringWalk])
  | succ fuel ih =>
    rw [stringWalk] at h
    split at h
    · rw [← Option.some.inj h]
      exact WalkFrame.stringRead s a
    · exact (WalkFrame.stringRead s a).trans ((WalkFrame.out _ _).trans (ih _ _ h))

/-! ## The fuel is enough: `stringFuel` gives the same walk as any other number of words that ends (log 23) -/

/-- More words never change a walk that ended. -/
theorem stringWalk_mono {bytes : Word → List Byte} {n m : Nat} {a : Word} {s t : State}
    (h : stringWalk bytes n a s = some t) (hm : n ≤ m) : stringWalk bytes m a s = some t := by
  induction n generalizing m a s with
  | zero => simp [stringWalk] at h
  | succ n ih =>
    obtain ⟨k, rfl⟩ : ∃ k, m = k + 1 := ⟨m - 1, by omega⟩
    rw [stringWalk] at h ⊢
    split at h
    · next h0 => rw [if_pos h0, h]
    · next h0 => rw [if_neg h0]; exact ih h (by omega)

theorem next_offset (a : Word) (k : Nat) : a + 1 + BitVec.ofNat 16 k = a + BitVec.ofNat 16 (k + 1) := by
  rw [BitVec.add_assoc, BitVec.ofNat_add, BitVec.add_comm 1]; rfl

/-- Every cell lies within one trip round memory. -/
theorem offset_of (a b : Word) : ∃ k, k < 65536 ∧ a + BitVec.ofNat 16 k = b :=
  ⟨(b - a).toNat, (b - a).isLt, by simp only [BitVec.ofNat_toNat, BitVec.setWidth_eq]; rw [BitVec.add_comm, BitVec.sub_add_cancel]⟩

/-- Over `n` cells whose reads do not poll, a walk ends at a zero word or passes them all, memory and input unchanged. -/
theorem stringWalk_plain (bytes : Word → List Byte) (a : Word) (s : State) (n : Nat)
    (hp : Config.trapStringReadPolls = false ∨ ∀ k, k < n → a + BitVec.ofNat 16 k ≠ kbsrAddr) :
    (∃ k, k < n ∧ s.mem.read (a + BitVec.ofNat 16 k) = 0 ∧ ∃ t, ∀ f, k < f → stringWalk bytes f a s = some t) ∨
    ((∀ k, k < n → s.mem.read (a + BitVec.ofNat 16 k) ≠ 0) ∧
      ∃ o, ∀ f, stringWalk bytes (n + f) a s = stringWalk bytes f (a + BitVec.ofNat 16 n) { s with output := o }) := by
  induction n generalizing a s with
  | zero => exact .inr ⟨by omega, s.output, fun f => by simp⟩
  | succ n ih =>
    have hr : s.stringRead a = (s.mem.read a, s) := by
      rw [State.stringRead_eq]
      rcases hp with h | h
      · simp [h]
      · have h0 := h 0 (by omega)
        split
        · exact State.memRead_plain s (by simpa using h0)
        · rfl
    by_cases h0 : s.mem.read a = 0
    · refine .inl ⟨0, by omega, by simpa using h0, s, fun f hf => ?_⟩
      obtain ⟨k, rfl⟩ : ∃ k, f = k + 1 := ⟨f - 1, by omega⟩
      rw [stringWalk, hr, if_pos h0]
    · have hs : ∀ f, stringWalk bytes (f + 1) a s =
          stringWalk bytes f (a + 1) (s.out (bytes (s.mem.read a))) := by
        intro f; rw [stringWalk, hr, if_neg h0]
      rcases ih (a + 1) (s.out (bytes (s.mem.read a)))
        (hp.imp id (fun h k hk => by rw [next_offset]; exact h _ (by omega))) with ⟨k, hk, hz, t, ht⟩ | ⟨hnz, o, ho⟩
      · refine .inl ⟨k + 1, by omega, by rw [← next_offset]; exact hz, t, fun f hf => ?_⟩
        obtain ⟨g, rfl⟩ : ∃ g, f = g + 1 := ⟨f - 1, by omega⟩
        rw [hs]; exact ht g (by omega)
      · refine .inr ⟨?_, o, fun f => ?_⟩
        · intro k hk
          cases k with
          | zero => simpa using h0
          | succ k => rw [← next_offset]; exact hnz k (by omega)
        · rw [show n + 1 + f = (n + f) + 1 by omega, hs, ho, next_offset]; rfl

/-- The first KBSR cell on the way, less than one trip ahead. -/
theorem first_kbsr (a : Word) : ∃ k, k < 65536 ∧ a + BitVec.ofNat 16 k = kbsrAddr ∧
    ∀ j, j < k → a + BitVec.ofNat 16 j ≠ kbsrAddr := by
  obtain ⟨k, hk, h⟩ := offset_of a kbsrAddr
  have hex : ∃ k, a + BitVec.ofNat 16 k = kbsrAddr := ⟨k, h⟩
  exact ⟨Nat.find hex, lt_of_le_of_lt (Nat.find_min' hex h) hk, Nat.find_spec hex, fun _ hj => Nat.find_min hex hj⟩

/-- Where string reads poll, one trip for each input byte and one more always suffices: a poll of KBSR that is not ready
reads zero. -/
theorem stringWalk_polling_ends (bytes : Word → List Byte) (hp : Config.trapStringReadPolls = true) (n : Nat) :
    ∀ (a : Word) (s : State), s.input.length ≤ n → ∃ t, stringWalk bytes (65536 * (n + 1)) a s = some t := by
  induction n with
  | zero =>
    intro a s hn
    obtain ⟨k, hk, hka, hkj⟩ := first_kbsr a
    rcases stringWalk_plain bytes a s k (.inr hkj) with ⟨j, hj, -, t, ht⟩ | ⟨-, o, ho⟩
    · exact ⟨t, ht _ (by omega)⟩
    · obtain ⟨g, hg⟩ : ∃ g, 65536 - k = g + 1 := ⟨65536 - k - 1, by omega⟩
      rw [show 65536 * (0 + 1) = k + (65536 - k) by omega, ho, hg, hka, stringWalk, State.stringRead_eq, if_pos hp]
      have hi : s.input = [] := by simpa using hn
      obtain ⟨ps, m, ⟨b, bs, hb, -⟩ | hq⟩ := State.pollKeyboard_cases { s with output := o }
      · simp [hi] at hb
      · simp [State.memRead, hq, Memory.read_write]
  | succ n ih =>
    intro a s hn
    obtain ⟨k, hk, hka, hkj⟩ := first_kbsr a
    rcases stringWalk_plain bytes a s k (.inr hkj) with ⟨j, hj, -, t, ht⟩ | ⟨-, o, ho⟩
    · exact ⟨t, ht _ (by omega)⟩
    · obtain ⟨g, hg, hg2⟩ : ∃ g, 65536 * (n + 1 + 1) = k + (g + 1) ∧ 65536 * (n + 1) ≤ g :=
        ⟨65536 * (n + 2) - k - 1, by omega, by omega⟩
      rw [hg, ho, hka, stringWalk, State.stringRead_eq, if_pos hp]
      obtain ⟨ps, m, ⟨b, bs, hb, hq⟩ | hq⟩ := State.pollKeyboard_cases { s with output := o }
      · have hb' : s.input = b :: bs := hb
        split
        · exact ⟨_, rfl⟩
        · obtain ⟨t, ht⟩ := ih (kbsrAddr + 1) (((State.memRead { s with output := o } kbsrAddr).2).out
              (bytes (State.memRead { s with output := o } kbsrAddr).1)) (by
            simp [State.out, State.memRead, hq]; simp [hb'] at hn; omega)
          exact ⟨t, stringWalk_mono ht hg2⟩
      · simp [State.memRead, hq, Memory.read_write]

/-- A walk whose reads do not poll never ends when no cell of memory is zero. -/
theorem stringWalk_never (bytes : Word → List Byte) (hp : Config.trapStringReadPolls = false) (s : State)
    (hz : ∀ a, s.mem.read a ≠ 0) (n : Nat) (a : Word) : stringWalk bytes n a s = none := by
  rcases stringWalk_plain bytes a s n (.inl hp) with ⟨k, -, h, -⟩ | ⟨-, o, ho⟩
  · exact absurd h (hz _)
  · simpa [stringWalk] using ho 0

/-- Every other walk ends within `stringFuel` words. -/
theorem stringWalk_ends (bytes : Word → List Byte) (s : State) (a : Word)
    (h : ¬ (Config.trapStringReadPolls = false ∧ ∀ a : Word, s.mem.read a ≠ 0)) :
    ∃ t, stringWalk bytes (stringFuel s) a s = some t := by
  by_cases hp : Config.trapStringReadPolls = true
  · exact stringWalk_polling_ends bytes hp _ a s le_rfl
  · have hp' : Config.trapStringReadPolls = false := by simpa using hp
    rcases stringWalk_plain bytes a s 65536 (.inl hp') with ⟨k, hk, -, t, ht⟩ | ⟨hnz, -⟩
    · exact ⟨t, ht _ (by unfold stringFuel; omega)⟩
    · exact absurd ⟨hp', fun b => by obtain ⟨k, hk, e⟩ := offset_of a b; rw [← e]; exact hnz k hk⟩ h

/-- The walk with `stringFuel` words ends exactly when the walk ends at all, and in the same state. -/
theorem stringWalk_stringFuel (bytes : Word → List Byte) (s t : State) (a : Word) :
    stringWalk bytes (stringFuel s) a s = some t ↔ ∃ n, stringWalk bytes n a s = some t := by
  refine ⟨fun h => ⟨_, h⟩, ?_⟩
  rintro ⟨n, h⟩
  by_cases hc : Config.trapStringReadPolls = false ∧ ∀ a : Word, s.mem.read a ≠ 0
  · rw [stringWalk_never bytes hc.1 s hc.2] at h; cases h
  · obtain ⟨u, hu⟩ := stringWalk_ends bytes s a hc
    have h1 := stringWalk_mono h (le_max_left n (stringFuel s))
    have h2 := stringWalk_mono hu (le_max_right n (stringFuel s))
    rw [h1] at h2; rw [hu, h2]

end Sys2Proof.Machine
end

