-- ==== Sys2Proof/Tests/Slice0.lean ====
section
/-! SUPPORT. Tests/Slice0.lean: the model against the spec's own vectors (95_test_vectors.md), the WellFormed smoke test, and
a witness for every statement that has hypotheses. Each test is one step on a small state. -/

namespace Sys2Proof.Tests

open Sys2Proof.Machine Sys2Proof.Claims

/-! ## WellFormed refuses each field out of its range (30_encoding.md R80) -/

theorem test_wf_br : (Instr.br true true true 256).wellFormed = false := by decide
theorem test_wf_addImm : (Instr.addImm 0 0 16).wellFormed = false ∧ (Instr.addImm 0 0 (-17)).wellFormed = false := by decide
theorem test_wf_andImm : (Instr.andImm 0 0 16).wellFormed = false ∧ (Instr.andImm 0 0 (-17)).wellFormed = false := by decide
theorem test_wf_ld : (Instr.ld 0 (-257)).wellFormed = false := by decide
theorem test_wf_st : (Instr.st 0 256).wellFormed = false := by decide
theorem test_wf_ldi : (Instr.ldi 0 256).wellFormed = false := by decide
theorem test_wf_sti : (Instr.sti 0 (-257)).wellFormed = false := by decide
theorem test_wf_lea : (Instr.lea 0 0x8000).wellFormed = false := by decide
theorem test_wf_ldr : (Instr.ldr 0 0 32).wellFormed = false ∧ (Instr.ldr 0 0 (-33)).wellFormed = false := by decide
theorem test_wf_str : (Instr.str 0 0 32).wellFormed = false ∧ (Instr.str 0 0 (-33)).wellFormed = false := by decide
theorem test_wf_jsr : (Instr.jsr 1024).wellFormed = false ∧ (Instr.jsr (-1025)).wellFormed = false := by decide

/-! ## Decoding: words written out from the encodings (95_test_vectors.md L2.1) -/

theorem test_decode_nop : decode 0x0000 = .nop := by decide
theorem test_decode_br : decode 0b0000111000000101 = .br true true true 5 := by decide
theorem test_decode_brn : decode 0b0000100000000000 = .br true false false 0 := by decide
theorem test_decode_addReg : decode 0b0001011001000010 = .addReg 3 1 2 := by decide
theorem test_decode_addReg_unread : decode 0b0001010011011100 = .addReg 2 3 4 := by decide
theorem test_decode_addImm : decode 0b0001000001111111 = .addImm 0 1 (-1) := by decide
theorem test_decode_ld : decode 0b0010001000000010 = .ld 1 2 := by decide
theorem test_decode_st : decode 0b0011011000000100 = .st 3 4 := by decide
theorem test_decode_jsr : decode 0b0100100000000101 = .jsr 5 := by decide
theorem test_decode_jsr_low : decode 0b0100110000000000 = .jsr (-1024) := by decide
theorem test_decode_jsrr : decode 0b0100000010000000 = .jsrr 2 := by decide
theorem test_decode_jsrr_unread : decode 0b0100011010000000 = .jsrr 2 := by decide
theorem test_decode_andImm : decode 0b0101000010100000 = .andImm 0 2 0 := by decide
theorem test_decode_andReg : decode 0b0101101110000111 = .andReg 5 6 7 := by decide
theorem test_decode_ldr : decode 0b0110100101111111 = .ldr 4 5 (-1) := by decide
theorem test_decode_str : decode 0b0111011100000010 = .str 3 4 2 := by decide
theorem test_decode_rti : decode 0b1000111111111111 = .rti := by decide
theorem test_decode_not : decode 0b1001010001111111 = .not 2 1 := by decide
theorem test_decode_not_unread : decode 0b1001011100000000 = .not 3 4 := by decide
theorem test_decode_ldi : decode 0b1010010000000001 = .ldi 2 1 := by decide
theorem test_decode_sti : decode 0b1011011000000100 = .sti 3 4 := by decide
theorem test_decode_jmp : decode 0b1100000011000000 = .jmp 3 := by decide
theorem test_decode_ret_unread : decode 0b1100111111111111 = .ret := by decide
theorem test_decode_res : decode 0b1101111010101101 = .res := by decide
theorem test_decode_lea : decode 0b1110000111111111 = .lea 0 (-1) := by decide
theorem test_decode_halt : decode 0b1111000000100101 = .halt := by decide
theorem test_decode_trap_unread : decode 0b1111111100100101 = .trap 0x25 := by decide
theorem test_tableWord : decodeTableWord 16 0xF026 = some (.trap 0x26) ∧ decodeTableWord 32 0 = none := by decide

/-! ## Sign extension (95_test_vectors.md L1.1) -/

theorem test_sext : sext (0x10 : BitVec 5) = 0xFFF0 ∧ sext (0x1F : BitVec 6) = 31 ∧ sext (0x100 : BitVec 9) = 0xFF00 ∧
    sext (0x7FF : BitVec 11) = 0xFFFF ∧ zext (0xFF : BitVec 8) = 0x00FF := by decide

/-! ## One step -/

/-- All zero, running at 0x3000, with no input and nothing free (the start state of 95_test_vectors.md). -/
def quiet : State where
  regs := Vector.replicate 8 0
  pc := 0x3000
  cond := .none
  status := .running
  mem := []
  input := []
  polls := []
  pollCount := 0
  output := []

/-- `quiet` with registers and cells set, pc at `a` and the word `w` there. -/
def start (a w : Word) (rs : List (Reg × Word)) (cells : List (Word × Word)) : State :=
  let s := rs.foldl (fun s r => s.setReg r.1 r.2) { quiet with pc := a }
  ((a, w) :: cells).foldl (fun s c => s.memWrite c.1 c.2) s

/-- The step answers a next state with `p`. -/
def nextIs (r : Result) (p : State → Bool) : Bool :=
  match r with
  | .next t => p t
  | .fault _ => false
  | .refused _ => false

/-- L1.3 -/
theorem test_add_minus_one : nextIs (step (start 0x3000 0x107F [(1, 5)] [])) (fun t => t.reg 0 == 4 && t.cond == .p && t.pc == 0x3001) = true := by decide

/-- L2.2 row 2 -/
theorem test_add_overflow : nextIs (step (start 0x3000 0x1642 [(1, 0x7FFF), (2, 1)] [])) (fun t => t.reg 3 == 0x8000 && t.cond == .n) = true := by decide

/-- L2.2 row 3 -/
theorem test_add_carry : nextIs (step (start 0x3000 0x1261 [(1, 0xFFFF)] [])) (fun t => t.reg 1 == 0 && t.cond == .z) = true := by decide

/-- L2.2 row 4 -/
theorem test_add_doubles : nextIs (step (start 0x3000 0x1241 [(1, 0x4000)] [])) (fun t => t.reg 1 == 0x8000 && t.cond == .n) = true := by decide

/-- L2.2 row 11 -/
theorem test_and_sext : nextIs (step (start 0x3000 0x50B0 [(2, 0xABCD)] [])) (fun t => t.reg 0 == 0xABC0 && t.cond == .n) = true := by decide

/-- L2.2 row 12 -/
theorem test_and_reg : nextIs (step (start 0x3000 0x5B87 [(6, 0xF0F0), (7, 0x3C3C)] [])) (fun t => t.reg 5 == 0x3030 && t.cond == .p) = true := by decide

/-- L2.2 row 13 -/
theorem test_not : nextIs (step (start 0x3000 0x947F [(1, 0x00FF)] [])) (fun t => t.reg 2 == 0xFF00 && t.cond == .n) = true := by decide

/-- L2.2 row 15 -/
theorem test_not_to_zero : nextIs (step (start 0x3000 0x973F [(4, 0xFFFF)] [])) (fun t => t.reg 3 == 0 && t.cond == .z) = true := by decide

/-- L2.3 row 1 -/
theorem test_brz_taken : nextIs (step ({ start 0x3000 0x0405 [] [] with cond := .z })) (fun t => t.pc == 0x3006 && t.cond == .z) = true := by decide

/-- L2.3 row 3 -/
theorem test_br_not_taken_at_reset : nextIs (step (start 0x3000 0x0E05 [] [])) (fun t => t.pc == 0x3001) = true := by decide

/-- L2.3 row 9 -/
theorem test_jmp : nextIs (step (start 0x3000 0xC0C0 [(3, 0x4000)] [])) (fun t => t.pc == 0x4000 && t.reg 7 == 0) = true := by decide

/-- L1.5 -/
theorem test_jsr : nextIs (step (start 0x3000 0x4805 [] [])) (fun t => t.reg 7 == 0x3001 && t.pc == 0x3006 && t.cond == .none) = true := by decide

/-- L2.3 row 13 -/
theorem test_jsr_wraps : nextIs (step (start 0xFC00 0x4BFF [] [])) (fun t => t.reg 7 == 0xFC01 && t.pc == 0) = true := by decide

/-- L2.3 row 14 -/
theorem test_jsrr : nextIs (step (start 0x3000 0x4080 [(2, 0x5000), (7, 0x1111)] [])) (fun t => t.reg 7 == 0x3001 && t.pc == 0x5000) = true := by decide

/-- L2.3 row 15 -/
theorem test_jsrr_r7 : nextIs (step (start 0x3000 0x41C0 [(7, 0x5000)] [])) (fun t => t.reg 7 == 0x3001 && t.pc == 0x3001) = true := by decide

/-- L2.4 row 1 -/
theorem test_ld : nextIs (step (start 0x3000 0x2202 [] [(0x3003, 0x1234)])) (fun t => t.reg 1 == 0x1234 && t.cond == .p) = true := by decide

/-- L2.4 row 2 -/
theorem test_ld_low : nextIs (step (start 0x3000 0x2300 [] [(0x2F01, 0xFFFF)])) (fun t => t.reg 1 == 0xFFFF && t.cond == .n) = true := by decide

/-- L1.4 -/
theorem test_ldi : nextIs (step (start 0x2FFF 0xA401 [] [(0x3001, 0x4000), (0x4000, 7)])) (fun t => t.reg 2 == 7 && t.cond == .p && t.pc == 0x3000) = true := by decide

/-- L2.4 row 5 -/
theorem test_ldi_kbsr_ready : nextIs (step ({ start 0x3000 0xA401 [] [(0x3002, 0xFE00)] with input := [0x61], polls := [true] })) (fun t => t.reg 2 == 0x8000 && t.cond == .n && t.mem.read 0xFE00 == 0x8000 && t.mem.read 0xFE02 == 0x61 && t.input == []) = true := by decide

/-- L2.4 row 6 -/
theorem test_ldi_kbsr_not_ready : nextIs (step ({ start 0x3000 0xA401 [] [(0x3002, 0xFE00), (0xFE00, 0x8000), (0xFE02, 0x62)] with input := [0x61], polls := [false] })) (fun t => t.reg 2 == 0 && t.cond == .z && t.mem.read 0xFE00 == 0 && t.mem.read 0xFE02 == 0x62 && t.input == [0x61]) = true := by decide

/-- L2.4 row 8 -/
theorem test_ldr_wraps_over_base : nextIs (step (start 0x3000 0x6241 [(1, 0xFFFF)] [(0, 0x42)])) (fun t => t.reg 1 == 0x42 && t.cond == .p) = true := by decide

/-- L2.4 row 10 -/
theorem test_ldr_kbdr_no_poll : nextIs (step ({ start 0x3000 0x6042 [(1, 0xFE00)] [(0xFE02, 0x41)] with input := [0x61], polls := [true] })) (fun t => t.reg 0 == 0x41 && t.cond == .p && t.mem.read 0xFE00 == 0 && t.input == [0x61]) = true := by decide

/-- L2.4 row 11 -/
theorem test_lea : nextIs (step (start 0x3000 0xE1FF [] [])) (fun t => t.reg 0 == 0x3000 && t.cond == .p) = true := by decide

/-- L2.4 row 13 -/
theorem test_lea_wraps : nextIs (step (start 0x0000 0xE1FF [] [])) (fun t => t.reg 0 == 0 && t.cond == .z) = true := by decide

/-- L2.4 row 14 -/
theorem test_st : nextIs (step (start 0x3000 0x3604 [(3, 0xBEEF)] [])) (fun t => t.mem.read 0x3005 == 0xBEEF && t.cond == .none && t.mem.read 0x3004 == 0) = true := by decide

/-- L2.4 row 15 -/
theorem test_st_kbsr_no_poll : nextIs (step ({ start 0xFDFF 0x3600 [(3, 0x1234)] [] with input := [0x61], polls := [true] })) (fun t => t.mem.read 0xFE00 == 0x1234 && t.input == [0x61] && t.pc == 0xFE00) = true := by decide

/-- L2.4 row 16 -/
theorem test_sti : nextIs (step (start 0x3000 0xB604 [(3, 0x42)] [(0x3005, 0x4000)])) (fun t => t.mem.read 0x4000 == 0x42) = true := by decide

/-- L2.4 row 18 -/
theorem test_str_same_register : nextIs (step (start 0x3000 0x793F [(4, 0x4000)] [])) (fun t => t.mem.read 0x3FFF == 0x4000) = true := by decide

/-- L2.4 row 19 -/
theorem test_str_wraps : nextIs (step (start 0x3000 0x705F [(0, 7), (1, 0xFFF0)] [])) (fun t => t.mem.read 0x000F == 7) = true := by decide

/-- L2.5 row 1 -/
theorem test_out : nextIs (step (start 0x3000 0xF021 [(0, 0x0141)] [])) (fun t => t.output == [0x41] && t.reg 0 == 0x0141 && t.cond == .none && t.pc == 0x3001) = true := by decide

/-- L2.5 rows 2 and 12 -/
theorem test_halt_unread_bits : nextIs (step (start 0x3000 0xFF25 [] [])) (fun t => t.status == .halted && t.pc == 0x3001) = true := by decide

/-- L2.5 row 3 -/
theorem test_getc : nextIs (step ({ start 0x3000 0xF020 [] [] with input := [0x41, 0x42] })) (fun t => t.reg 0 == 0x41 && t.input == [0x42] && t.output == []) = true := by decide

/-- L2.5 row 5 -/
theorem test_in : nextIs (step ({ start 0x3000 0xF023 [] [] with input := [0x37] })) (fun t => t.reg 0 == 0x37 && t.input == []) = true := by decide

/-- L1.6 -/
theorem test_puts : nextIs (step (start 0x3000 0xF022 [(0, 0x4000)] [(0x4000, 0x48), (0x4001, 0x49)])) (fun t => t.output == [0x48, 0x49] && t.reg 0 == 0x4000 && t.pc == 0x3001) = true := by decide

/-- L2.5 row 7 -/
theorem test_puts_low_bytes : nextIs (step (start 0x3000 0xF022 [(0, 0x4000)] [(0x4000, 0x4148), (0x4001, 0x4100)])) (fun t => t.output == [0x48, 0x00]) = true := by decide

/-- L2.5 row 8 -/
theorem test_putsp : nextIs (step (start 0x3000 0xF024 [(0, 0x4000)] [(0x4000, 0x4948), (0x4001, 0x0021)])) (fun t => t.output == [0x48, 0x49, 0x21]) = true := by decide

/-- L2.5 row 9 -/
theorem test_putsp_zero_low_byte : nextIs (step (start 0x3000 0xF024 [(0, 0x4000)] [(0x4000, 0x4100)])) (fun t => t.output == [0x00, 0x41]) = true := by decide

/-- L2.6 row 3 -/
theorem test_fetch_wraps : nextIs (step (start 0xFFFF 0x0000 [] [])) (fun t => t.pc == 0) = true := by decide

/-- L2.6 row 4 -/
theorem test_fetch_kbsr_not_ready : nextIs (step ({ start 0xFE00 0x1021 [] [] with input := [0x61], polls := [false] })) (fun t => t.pc == 0xFE01 && t.reg 0 == 0 && t.mem.read 0xFE00 == 0) = true := by decide

/-- L2.6 row 6 -/
theorem test_fetch_kbdr : nextIs (step ({ start 0xFE02 0x0061 [] [] with input := [0x61], polls := [true] })) (fun t => t.pc == 0xFE03 && t.input == [0x61]) = true := by decide

/-- L2.5 row 4: both parameters true. -/
theorem test_getc_with_parameters (h1 : Config.trapLinkR7 = true) (h2 : Config.trapInputSetsFlags = true) :
    ∃ t, step { start 0x3000 0xF020 [] [] with input := [0x41] } = .next t ∧
      t.reg 0 = 0x41 ∧ t.cond = .p ∧ t.reg 7 = 0x3001 := by
  refine ⟨_, rfl, by decide, ?_, ?_⟩
  · simp only [State.receive, State.inputFlags, h2, if_true, State.reg_setReg_self]
    decide
  · rw [State.receive, State.reg_inputFlags, State.reg_setReg_ne _ _ (by decide)]
    exact State.trapEntry_reg7_linked h1

/-- L2.5 row 10 -/
theorem test_unmapped_trap : step (start 0x3000 0xF026 [] []) = .fault (.unmappedTrap 0x26 ⟨[], []⟩) := by rfl

/-- L2.5 row 13 -/
theorem test_getc_stuck : step (start 0x3000 0xF020 [] []) = .fault (.inputNeverArrives ⟨[], []⟩) := by rfl

/-- L1.8 -/
theorem test_rti : step (start 0x3000 0x8000 [] []) = .fault (.illegalOpcode 8 ⟨[], []⟩) := by rfl

/-- L2.6 row 2 -/
theorem test_res : step (start 0x3000 0xDEAD [] []) = .fault (.illegalOpcode 13 ⟨[], []⟩) := by rfl

/-- L2.6 row 5, and R124: the byte the aborting fetch polled is gone. -/
theorem test_fetch_kbsr_ready :
    step { start 0xFE00 0 [] [] with input := [0x62, 0x63], polls := [true], output := [0x41] } =
      .fault (.illegalOpcode 8 ⟨[0x63], [0x41]⟩) := by rfl

/-- The host's word as the first instruction after reset: ADD R0, R0, #15 (0x102F). -/
theorem test_withFetchWord : nextIs (step (State.reset.withFetchWord 16 0x102F))
    (fun t => t.reg 0 == 15 && t.cond == .p && t.pc == 0x3001) = true := by decide

/-- R141 and R143: a later image overwrites an earlier one; an odd file is refused (U5). -/
theorem test_boot : (match boot [some [0x30, 0x00, 0x12, 0x34], some [0x30, 0x00, 0xF0, 0x25]] with
    | .ok s => s.mem.read 0x3000 == 0xF025 && s.mem.read 0x3001 == 0
    | .error _ => false) = true ∧
    (match boot [some [0x30, 0x00, 0x12]] with | .ok _ => false | .error e => e == .oddLength) = true := by decide

/-! ## Witnesses: the hypotheses of each statement are met together -/

theorem witness_DecodeEncodeRoundTrip :
    (Instr.ld 1 (-256)).wellFormed = true ∧ (Instr.br true false true 255).wellFormed = true ∧
    (Instr.addImm 1 2 (-16)).wellFormed = true ∧ (Instr.andImm 1 2 15).wellFormed = true ∧
    (Instr.ldr 1 2 (-32)).wellFormed = true ∧ (Instr.str 1 2 31).wellFormed = true ∧
    (Instr.jsr (-1024)).wellFormed = true ∧ (Instr.jsr 1023).wellFormed = true := by decide

theorem witness_UnreadBitsDoNotMatter :
    (0x14DC : Word) ≠ 0x14C4 ∧ (0x14C4 : Word) &&& (decode 0x14DC).readBits = 0x14DC &&& (decode 0x14DC).readBits := by decide

theorem witness_SextAndZextExtendFields :
    (11 : Nat) ∈ [5, 6, 9, 11] ∧ (0x400 : BitVec 11).getLsbD 10 = true ∧ (11 ≤ 15 ∧ 15 < 16) ∧ (0 : Nat) ≤ 16 ∧ (16 : Nat) ≤ 16 := by decide

theorem witness_FlagUpdatersLeaveSignOrZero :
    (∃ t, exec (.addImm 0 1 0) quiet = .next t ∧ flagDest (.addImm 0 1 0) = some 0) ∧
    (∃ t, exec (.trap 0x20) { quiet with input := [0x41] } = .next t) ∧
    (∃ t, exec (.trap 0x23) { quiet with input := [0x41] } = .next t) ∧
    (∃ t, exec .nop quiet = .next t ∧ t.cond = .none) := ⟨⟨_, rfl, rfl⟩, ⟨_, rfl⟩, ⟨_, rfl⟩, ⟨_, rfl, rfl⟩⟩

theorem witness_OnlyFlagUpdatersWriteCond :
    ∃ t, exec (.st 1 2) quiet = .next t ∧ flagDest (.st 1 2) = none ∧ Instr.st 1 2 ≠ .trap 0x20 ∧ Instr.st 1 2 ≠ .trap 0x23 := ⟨_, rfl, rfl, by decide, by decide⟩

theorem witness_CondIsReadOnlyByBr :
    (∀ n z p off, Instr.jmp 1 ≠ .br n z p off) ∧ (∃ t, exec (.jmp 1) quiet = .next t) ∧
    (∀ n z p off, Instr.rti ≠ .br n z p off) ∧ ∃ f, exec .rti quiet = .fault f := ⟨fun _ _ _ _ h => (by cases h), ⟨_, rfl⟩, fun _ _ _ _ h => (by cases h), ⟨_, rfl⟩⟩

theorem witness_OnlyNamedRegistersAreWritten :
    ∃ t, exec (.addImm 0 1 5) quiet = .next t ∧ t.reg 0 ≠ quiet.reg 0 := ⟨_, rfl, by decide⟩

theorem witness_OnlyBranchesAndJumpsWritePc :
    (∃ t, exec (.not 0 1) quiet = .next t) ∧ (∀ n z p off, Instr.not 0 1 ≠ .br n z p off) ∧
    (∀ base, Instr.not 0 1 ≠ .jmp base) ∧ (∀ off, Instr.not 0 1 ≠ .jsr off) ∧ ∀ base, Instr.not 0 1 ≠ .jsrr base := ⟨⟨_, rfl⟩, fun _ _ _ _ h => (by cases h), fun _ h => (by cases h), fun _ h => (by cases h), fun _ h => (by cases h)⟩

theorem witness_MemReadIsPlainAwayFromKbsr :
    (0xFDFF : Word) ≠ 0xFE00 ∧ (0xFE01 : Word) ≠ 0xFE00 ∧ (0xFE02 : Word) ≠ 0xFE00 := by decide

theorem witness_KbsrReadPolls :
    (∃ t, { quiet with input := [0x61], polls := [true] }.kbPoll = (some 0x61, t)) ∧
    (∃ t, { quiet with input := [0x61], polls := [false] }.kbPoll = (none, t)) ∧
    ∃ t, { quiet with polls := [true] }.kbPoll = (none, t) := ⟨⟨_, rfl⟩, ⟨_, rfl⟩, ⟨_, rfl⟩⟩

theorem witness_OnlyStoresAndPollsChangeMemory :
    ∃ t, exec (.st 1 2) quiet = .next t ∧ ∀ sr ea, storeOf quiet (.st 1 2) = some (sr, ea) → (0x3003 : Word) ≠ ea := ⟨_, rfl, by intro sr ea h; cases h; decide⟩

theorem witness_OffTheConsoleNothingIsReadOrWritten :
    (∃ t, exec (.ld 1 2) quiet = .next t) ∧ (∀ v, Instr.ld 1 2 ≠ .trap v) ∧ 0xFE00 ∉ readAddrs quiet (.ld 1 2) := ⟨⟨_, rfl⟩, fun _ h => (by cases h), by decide⟩

theorem witness_LdAndLdrCompleteWithLoadedWord :
    quiet.pc + 2 ≠ 0xFE00 ∧ quiet.reg 1 + 2 ≠ 0xFE00 := by decide

theorem witness_LdiCompletesThroughPointer :
    quiet.pc + 2 ≠ 0xFE00 ∧ quiet.mem.read (quiet.pc + 2) ≠ 0xFE00 := by decide

theorem witness_GetcCompletesWithNextByte :
    { quiet with input := [0x41] }.input = 0x41 :: [] ∧ quiet.input = [] := ⟨rfl, rfl⟩

theorem witness_InPromptsEchoesAndStores :
    { quiet with input := [0x37] }.input = 0x37 :: [] ∧ quiet.input = [] := ⟨rfl, rfl⟩

theorem witness_PutsWritesStringUpToZeroWord :
    (∀ k, k < 2 → (start 0x3000 0xF022 [(0, 0xFFFF)] [(0xFFFF, 0x48), (0, 0x4900)]).mem.read (0xFFFF + BitVec.ofNat 16 k) ≠ 0) ∧
    (start 0x3000 0xF022 [(0, 0xFFFF)] [(0xFFFF, 0x48), (0, 0x4900)]).reg 0 = 0xFFFF ∧
    (start 0x3000 0xF022 [(0, 0xFFFF)] [(0xFFFF, 0x48), (0, 0x4900)]).mem.read (0xFFFF + BitVec.ofNat 16 2) = 0 ∧
    ∀ k, k ≤ 2 → (0xFFFF : Word) + BitVec.ofNat 16 k ≠ 0xFE00 := by decide

theorem witness_PutspWritesPackedStringUpToZeroWord :
    (∀ k, k < 2 → (start 0x3000 0xF022 [(0, 0xFFFF)] [(0xFFFF, 0x48), (0, 0x4900)]).mem.read (0xFFFF + BitVec.ofNat 16 k) ≠ 0) ∧
    (start 0x3000 0xF022 [(0, 0xFFFF)] [(0xFFFF, 0x48), (0, 0x4900)]).reg 0 = 0xFFFF ∧
    (start 0x3000 0xF022 [(0, 0xFFFF)] [(0xFFFF, 0x48), (0, 0x4900)]).mem.read (0xFFFF + BitVec.ofNat 16 2) = 0 ∧
    ∀ k, k ≤ 2 → (0xFFFF : Word) + BitVec.ofNat 16 k ≠ 0xFE00 := by decide

theorem witness_StringRoutineIsStuckExactlyWithoutZeroWord :
    (0x22 : BitVec 8) = 0x22 ∧ (0x24 : BitVec 8) = 0x24 ∧ quiet.mem.read 0 = 0 := by decide

theorem witness_UnmappedVectorAborts :
    (0x1F : BitVec 8).toNat < 0x20 ∧ 0x25 < (0x26 : BitVec 8).toNat := by decide

theorem witness_RtiAndResAbort :
    (0x8FFF : Word).extractLsb' 12 4 = 8 ∧ (0xDEAD : Word).extractLsb' 12 4 = 13 ∧
    (start 0x3000 0x8FFF [] []).status = .running ∧
    ((start 0x3000 0x8FFF [] []).memRead 0x3000).1.extractLsb' 12 4 = 8 ∧
    ((start 0x3000 0xDEAD [] []).memRead 0x3000).1.extractLsb' 12 4 = 13 := by decide

theorem witness_StepFetchesDecodesExecutes :
    quiet.status = .running := rfl

theorem witness_StepRunsTheInstructionAtPc :
    (start 0x3000 0x14DC [] []).status = .running ∧ (start 0x3000 0x14DC [] []).pc ≠ 0xFE00 ∧
    (Instr.addReg 2 3 4).wellFormed = true ∧ decode ((start 0x3000 0x14DC [] []).mem.read 0x3000) = .addReg 2 3 4 ∧
    (start 0x3000 0x14C4 [] []).mem.read 0x3000 = encode (.addReg 2 3 4) := by decide

theorem witness_FetchFromKbsrPolls :
    (∃ t, { quiet with pc := 0xFE00, polls := [false] }.kbPoll = (none, t)) ∧
    (∃ t, { quiet with pc := 0xFE00, input := [0x62], polls := [true] }.kbPoll = (some 0x62, t)) ∧
    quiet.status = .running := ⟨⟨_, rfl⟩, ⟨_, rfl⟩, rfl⟩

theorem witness_StoredWordIsExecutedNext :
    quiet.status = .running ∧ quiet.pc ≠ 0xFE00 ∧ storeOf quiet (.st 1 0) = some (1, quiet.pc) ∧
    ∃ t, exec (.st 1 0) quiet = .next t := ⟨rfl, by decide, rfl, ⟨_, rfl⟩⟩

theorem witness_StoppedRunStaysStopped :
    { quiet with status := .halted }.status ≠ .running ∧ { quiet with status := .terminated }.status ≠ .running := by decide

theorem witness_OnlyHaltStopsTheLoop :
    ∃ t, step (start 0x3000 0xF025 [] []) = .next t ∧ t.status ≠ .running ∧ (start 0x3000 0xF025 [] []).status = .running := ⟨_, rfl, by decide, rfl⟩

theorem witness_StepStopsOnlyForListedCauses :
    step (start 0x3000 0x8000 [] []) = .fault (.illegalOpcode 8 ⟨[], []⟩) ∧
    step (start 0x3000 0xD000 [] []) = .fault (.illegalOpcode 13 ⟨[], []⟩) ∧
    step (start 0x3000 0xF01F [] []) = .fault (.unmappedTrap 0x1F ⟨[], []⟩) ∧
    step (start 0x3000 0xF026 [] []) = .fault (.unmappedTrap 0x26 ⟨[], []⟩) ∧
    step (start 0x3000 0xF020 [] []) = .fault (.inputNeverArrives ⟨[], []⟩) ∧
    step (start 0x3000 0xF023 [] []) = .fault (.inputNeverArrives ⟨[], Config.inPrompt⟩) := ⟨rfl, rfl, rfl, rfl, rfl, rfl⟩

theorem witness_StepKeepsCanonicalMemory :
    Safety.Inv (start 0x3000 0x3604 [(3, 0xBEEF)] []) ∧ ∃ t, step (start 0x3000 0x3604 [(3, 0xBEEF)] []) = .next t := ⟨(by decide : Memory.wf _), ⟨_, rfl⟩⟩

theorem witness_EqualCellsAreEqualMemory :
    Memory.wf [(0, 1), (131071, 255)] ∧ Memory.wf [] := by decide

theorem witness_OutputOnlyGrows :
    ∃ t, Sys2Proof.core.run 1 (start 0x3000 0xF021 [(0, 0x41)] []) = .next t ∧ t.output = [0x41] := ⟨_, rfl, by decide⟩

theorem witness_InputIsConsumedInOrderOnce :
    ∃ t, Sys2Proof.core.run 1 { start 0x3000 0xF020 [] [] with input := [1, 2] } = .next t ∧ t.input = [2] := ⟨_, rfl, rfl⟩

theorem witness_CondNeverBecomesNoneAgain :
    ∃ t, { quiet with cond := .z }.cond ≠ .none ∧ Sys2Proof.core.run 1 { quiet with cond := .z } = .next t := ⟨_, by decide, rfl⟩

theorem witness_BootStartsAt3000WhateverTheImages :
    (∃ s, boot [some [0x40, 0x00, 0xF0, 0x25]] = .ok s) ∧
    ∀ f ∈ [(some [0x40, 0x00, 0xF0, 0x25] : ImageFile)], ¬ imageWrites f 0x3000 := by
  refine ⟨⟨_, rfl⟩, ?_⟩
  rintro f hf ⟨origin, ws, k, hp, hk, ha, -⟩
  obtain rfl := List.mem_singleton.1 hf
  cases hp
  obtain rfl : k = 0 := by simpa using hk
  exact absurd ha (by decide)

theorem witness_ImageWordsAreLoadedFromOrigin :
    (0xFFFE : Word).toNat + [(1 : Word), 2].length ≤ 65536 ∧
    ((0xFFFE : Word).toNat ≤ (0xFFFF : Word).toNat ∧ (0xFFFF : Word).toNat < (0xFFFE : Word).toNat + [(1 : Word), 2].length) := by decide

theorem witness_ImagesLoadInSequenceOrNotAtAll :
    (∃ s, boot [some [0x40, 0x00], some [0x30, 0x00, 0xF0, 0x25]] = .ok s) ∧
    parseImage (some [0x30, 0x00, 0xF0, 0x25]) = .ok (0x3000, [0xF025]) ∧ parseImage none = .error .unreadable ∧
    (∃ m, loadImages [some [0x30, 0x00, 0xF0, 0x25]] State.reset.mem = .ok m) ∧
    loadImages [none] State.reset.mem = .error .unreadable := ⟨⟨_, rfl⟩, rfl, rfl, ⟨_, rfl⟩, rfl⟩

end Sys2Proof.Tests
end

section
/-! SUPPORT. The extensions of R13 bit by bit, and the statement about them (family 00_scope.md). -/

namespace Sys2Proof

/-- Below the field's width `sext` keeps the field's bits; from there up to bit 15 it repeats the sign bit (R13). -/
theorem getLsbD_sext {n : Nat} (v : BitVec n) (k : Nat) :
    (sext v).getLsbD k = (decide (k < 16) && if k < n then v.getLsbD k else v.getLsbD (n - 1)) := by
  rw [sext, BitVec.getLsbD_signExtend, BitVec.msb_eq_getLsbD_last]

/-- Bit `k` of `0xFFFF << n`, the mask R13 puts above a field of width `n`. -/
theorem getLsbD_onesAbove (n k : Nat) :
    ((0xFFFF : Word) <<< n).getLsbD k = (decide (k < 16) && decide (n ≤ k)) := by
  have hones : (0xFFFF : Word) = BitVec.allOnes 16 := rfl
  rw [hones, BitVec.getLsbD_shiftLeft, BitVec.getLsbD_allOnes, Bool.eq_iff_iff]
  simp only [Bool.and_eq_true, Bool.not_eq_true', decide_eq_true_eq, decide_eq_false_iff_not]
  omega

/-- R13's first form of `sext`: the field itself, with ones above it when its sign bit is set. -/
theorem sext_eq_or_onesAbove {n : Nat} (v : BitVec n) :
    sext v = if v.getLsbD (n - 1) = true then v.setWidth 16 ||| (0xFFFF : Word) <<< n else v.setWidth 16 := by
  apply BitVec.eq_of_getLsbD_eq
  intro k hk
  rw [getLsbD_sext, apply_ite (BitVec.getLsbD · k), BitVec.getLsbD_or, BitVec.getLsbD_setWidth, getLsbD_onesAbove]
  by_cases hkn : k < n
  · have hmask : ¬ n ≤ k := by omega
    simp [hk, hkn, hmask]
  · have hmask : n ≤ k := by omega
    simp [hk, hkn, hmask]

/-- Cutting an extended field back to its width gives the field. -/
theorem setWidth_sext {n : Nat} (hn : n ≤ 16) (v : BitVec n) : (sext v).setWidth n = v := by
  apply BitVec.eq_of_getLsbD_eq
  intro k hk
  have hk16 : k < 16 := by omega
  rw [BitVec.getLsbD_setWidth, getLsbD_sext]
  simp [hk, hk16]

theorem sext_toNat_mod {n : Nat} (hn : n ≤ 16) (v : BitVec n) : (sext v).toNat % 2 ^ n = v.toNat := by
  rw [← BitVec.toNat_setWidth, setWidth_sext hn]

theorem getLsbD_sext_of_ge {n k : Nat} (v : BitVec n) (hnk : n ≤ k) (hk : k < 16) :
    (sext v).getLsbD k = v.getLsbD (n - 1) := by
  have hkn : ¬ k < n := by omega
  rw [getLsbD_sext]
  simp [hk, hkn]

theorem zext_toNat {n : Nat} (hn : n ≤ 16) (v : BitVec n) : (zext v).toNat = v.toNat :=
  BitVec.toNat_setWidth_of_le hn

theorem getLsbD_zext_of_ge {n k : Nat} (v : BitVec n) (hnk : n ≤ k) : (zext v).getLsbD k = false := by
  simp [zext, BitVec.getLsbD_of_ge v k hnk]

/-- Settles O7: `sext` and `zext` are compared with R13's forms bit by bit, for every width up to 16; R13's four
widths of `sext` are among them. -/
theorem sextAndZextExtendFields : Obligations.SextAndZextExtendFields := by
  unfold Obligations.SextAndZextExtendFields
  refine ⟨fun n hn v => ?_, fun n hn v => ⟨zext_toNat hn v, fun _ hnk => getLsbD_zext_of_ge v hnk⟩⟩
  have hn16 : n ≤ 16 := by omega
  exact ⟨sext_eq_or_onesAbove v, sext_toNat_mod hn16 v, fun _ hnk hk => getLsbD_sext_of_ge v hnk hk⟩

end Sys2Proof
end

section
/-! SUPPORT. The flags of a value, the model's against the statements', and the statement about setcc (family
10_state.md). -/

namespace Sys2Proof.Machine

open Sys2Proof.Claims

/-- The model's R27 and the statements' R27 agree: `bit v 15` is the `v[15]` that `flagsOf` tests. -/
theorem condOf_eq_flagsOf (v : Word) : condOf v = flagsOf v := rfl

/-- All `setcc` does: `cond` gets the flags of the value, and no other field changes. -/
theorem State.setcc_eq (s : State) (v : Word) : s.setcc v = { s with cond := flagsOf v } := by
  rw [State.setcc, condOf_eq_flagsOf]

/-- Settles O8: `State.setcc_eq`, with `flagsOf` written out as R27 has it. -/
theorem setccGivesSignOrZero : Obligations.SetccGivesSignOrZero := by
  unfold Obligations.SetccGivesSignOrZero
  intro s v
  rw [State.setcc_eq, flagsOf]

end Sys2Proof.Machine
end

section
/-! SUPPORT. The statements about MemRead and MemWrite (family 20_memory.md). -/

namespace Sys2Proof.Machine

/-- Settles O15: a write puts the new backing store into the state and touches no other field, and its cells are those
of `Memory.read_write`. -/
theorem memWriteStoresExactlyOneCell : Obligations.MemWriteStoresExactlyOneCell := by
  unfold Obligations.MemWriteStoresExactlyOneCell
  intro s a v
  refine ⟨rfl, fun b => ?_⟩
  rw [State.memWrite_mem, Memory.read_write]

/-- Settles O16: `State.memRead_plain`, with 0xFE00 for the model's `kbsrAddr`. -/
theorem memReadIsPlainAwayFromKbsr : Obligations.MemReadIsPlainAwayFromKbsr := by
  unfold Obligations.MemReadIsPlainAwayFromKbsr
  intro s a ha
  exact State.memRead_plain s ha

end Sys2Proof.Machine
end

section
/-! SUPPORT. The fields a word keeps when it is decoded and encoded again, and the statement about them (family
30_encoding.md). An encoded word is an OR of fields; each field comes from the word under a mask, and so does their OR. -/

namespace Sys2Proof

/-- Putting a field of a word back where it was read keeps the word's bits of that field and clears the others. -/
theorem put_field (w : Word) (lo n : Nat) : put lo (field w lo n) = w &&& put lo (BitVec.allOnes n) := by
  apply BitVec.eq_of_getLsbD_eq
  intro i hi
  rw [BitVec.getLsbD_and]
  show bit (put lo (field w lo n)) i = (bit w i && bit (put lo (BitVec.allOnes n)) i)
  rw [bit_put, bit_put, getLsbD_field, BitVec.getLsbD_allOnes]
  by_cases hlo : lo ≤ i
  · rw [Nat.add_sub_of_le hlo]
    simp [hi, hlo, Bool.and_comm]
  · simp [hlo]

/-- A condition bit put back where it was read. -/
theorem put_boolBit (w : Word) (i : Nat) : put i (boolBit (bit w i)) = w &&& put i (BitVec.allOnes 1) := by
  have hfield : boolBit (bit w i) = field w i 1 := by
    apply BitVec.eq_of_getLsbD_eq
    intro k hk
    obtain rfl : k = 0 := by omega
    rw [getLsbD_field]
    simp [boolBit]
  rw [hfield, put_field]

/-- A register number put back where it was read. -/
theorem put_regField (w : Word) (lo : Nat) :
    put lo (regBits (regField w lo)) = w &&& put lo (BitVec.allOnes 3) := by
  rw [regBits_regField, put_field]

/-- A sign-extended immediate or offset, cut to its width and put back where it was read. -/
theorem put_sextField (w : Word) {n : Nat} (hn : n ≤ 16) :
    put 0 ((sext (field w 0 n)).setWidth n) = w &&& put 0 (BitVec.allOnes n) := by
  rw [setWidth_sext hn, put_field]

section
variable {w x y m m' : Word}

/-- If each of two words keeps part of `w`, their OR keeps both parts. -/
theorem or_eq_and_or (hx : x = w &&& m) (hy : y = w &&& m') : x ||| y = w &&& (m ||| m') := by
  rw [hx, hy, BitVec.and_or_distrib_left]

/-- A mode bit that is 0 in the word is read, though the encoder puts nothing there. -/
theorem eq_and_or_clear {i : Nat} (hx : x = w &&& m) (hi : ¬ bit w i = true) :
    x = w &&& (m ||| put i (BitVec.allOnes 1)) := by
  have hzero : (0 : Word) = w &&& put i (BitVec.allOnes 1) := by
    rw [← put_boolBit, Bool.eq_false_of_not_eq_true hi]
    simp [boolBit, put]
  simpa using or_eq_and_or hx hzero

/-- A mode bit that is 1 in the word, put back by the encoder. -/
theorem or_set_eq_and_or {i : Nat} (hx : x = w &&& m) (hi : bit w i = true) :
    x ||| put i 0b1#1 = w &&& (m ||| put i (BitVec.allOnes 1)) := by
  refine or_eq_and_or hx ?_
  rw [← put_boolBit, hi]
  rfl

/-- The opcode of a word, from the four bits `decode` looks at. -/
theorem putOp_eq_and {b15 b14 b13 b12 : Bool} (h15 : bit w 15 = b15) (h14 : bit w 14 = b14) (h13 : bit w 13 = b13)
    (h12 : bit w 12 = b12) :
    putOp (BitVec.ofBool b15 ++ BitVec.ofBool b14 ++ BitVec.ofBool b13 ++ BitVec.ofBool b12) = w &&& 0xF000 := by
  have hput : ∀ b15 b14 b13 b12 : Bool,
      putOp (BitVec.ofBool b15 ++ BitVec.ofBool b14 ++ BitVec.ofBool b13 ++ BitVec.ofBool b12) =
        put 15 (boolBit b15) ||| put 14 (boolBit b14) ||| put 13 (boolBit b13) ||| put 12 (boolBit b12) := by decide
  rw [hput, ← h15, ← h14, ← h13, ← h12]
  exact or_eq_and_or (or_eq_and_or (or_eq_and_or (put_boolBit w 15) (put_boolBit w 14)) (put_boolBit w 13))
    (put_boolBit w 12)

/-! ### The formats that more than one instruction has, from their opcode on -/

/-- Format OPR (R68), whose bit 5 is 0 and whose bits 4 and 3 no field names. -/
theorem opr_eq_and (hop : x = w &&& 0xF000) (h5 : ¬ bit w 5 = true) :
    x ||| put 9 (regBits (regField w 9)) ||| put 6 (regBits (regField w 6)) ||| put 0 (regBits (regField w 0)) =
      w &&& 0xFFE7 :=
  eq_and_or_clear (or_eq_and_or (or_eq_and_or (or_eq_and_or hop (put_regField w 9)) (put_regField w 6))
    (put_regField w 0)) h5

/-- Format OPI (R69), whose bit 5 is 1. -/
theorem opi_eq_and (hop : x = w &&& 0xF000) (h5 : bit w 5 = true) :
    x ||| put 9 (regBits (regField w 9)) ||| put 6 (regBits (regField w 6)) ||| put 5 0b1#1 |||
      put 0 ((sext (field w 0 5)).setWidth 5) = w &&& 0xFFFF :=
  or_eq_and_or (or_set_eq_and_or (or_eq_and_or (or_eq_and_or hop (put_regField w 9)) (put_regField w 6)) h5)
    (put_sextField w (by decide))

/-- Format PC9 (R75). -/
theorem pc9_eq_and (hop : x = w &&& 0xF000) :
    x ||| put 9 (regBits (regField w 9)) ||| put 0 ((sext (field w 0 9)).setWidth 9) = w &&& 0xFFFF :=
  or_eq_and_or (or_eq_and_or hop (put_regField w 9)) (put_sextField w (by decide))

/-- Format BASE6 (R76). -/
theorem base6_eq_and (hop : x = w &&& 0xF000) :
    x ||| put 9 (regBits (regField w 9)) ||| put 6 (regBits (regField w 6)) |||
      put 0 ((sext (field w 0 6)).setWidth 6) = w &&& 0xFFFF :=
  or_eq_and_or (or_eq_and_or (or_eq_and_or hop (put_regField w 9)) (put_regField w 6)) (put_sextField w (by decide))

end

/-- Settles O2: by the opcode and the mode bit, as `decode` splits; in each case the fields `encode` puts back are those
of the row's format. The opcodes come in `decode`'s order, 0 to 15. -/
theorem encodeDecodeKeepsReadBits : Obligations.EncodeDecodeKeepsReadBits := by
  unfold Obligations.EncodeDecodeKeepsReadBits decode
  intro w
  split <;> rename_i h15 h14 h13 h12 <;> have hop := putOp_eq_and h15 h14 h13 h12
  case h_1 => -- BR
    exact or_eq_and_or (or_eq_and_or (or_eq_and_or (or_eq_and_or hop (put_boolBit w 11)) (put_boolBit w 10))
      (put_boolBit w 9)) (put_sextField w (by decide))
  case h_2 => -- ADD
    split
    next h5 => exact opi_eq_and hop h5
    next h5 => exact opr_eq_and hop h5
  case h_3 => exact pc9_eq_and hop -- LD
  case h_4 => exact pc9_eq_and hop -- ST
  case h_5 => -- JSR and JSRR
    split
    next h11 => exact or_eq_and_or (or_set_eq_and_or hop h11) (put_sextField w (by decide))
    next h11 => exact eq_and_or_clear (or_eq_and_or hop (put_regField w 6)) h11
  case h_6 => -- AND
    split
    next h5 => exact opi_eq_and hop h5
    next h5 => exact opr_eq_and hop h5
  case h_7 => exact base6_eq_and hop -- LDR
  case h_8 => exact base6_eq_and hop -- STR
  case h_9 => exact hop -- RTI
  case h_10 => exact or_eq_and_or (or_eq_and_or hop (put_regField w 9)) (put_regField w 6) -- NOT
  case h_11 => exact pc9_eq_and hop -- LDI
  case h_12 => exact pc9_eq_and hop -- STI
  case h_13 => exact or_eq_and_or hop (put_regField w 6) -- JMP
  case h_14 => exact hop -- RES
  case h_15 => exact pc9_eq_and hop -- LEA
  case h_16 => exact or_eq_and_or hop (put_field w 0 8) -- TRAP

end Sys2Proof
end

section
/-! SUPPORT. TRAP entry in the words of the statements, how the dispatch table is reached, and the statement about OUT
(family 43_trap.md). -/

namespace Sys2Proof.Machine

open Sys2Proof.Claims

/-- The model's R127 and the statements' R127 agree. -/
theorem State.trapEntry_eq_linked (s : State) : s.trapEntry = linked s := State.trapEntry_eq s

/-- TRAP entry writes no register but R7 (R110). -/
theorem State.reg_trapEntry_ne (s : State) {r : Reg} (h : r ≠ 7) : s.trapEntry.reg r = s.reg r :=
  State.reg_setReg_ne s _ h

/-- A TRAP runs its routine from the state TRAP entry leaves. -/
theorem exec_trap (v : BitVec 8) (s : State) : exec (.trap v) s = trapDispatch v s.trapEntry := rfl

/-- The dispatch table at 0x21 (R111). -/
theorem trapDispatch_out (s : State) : trapDispatch 0x21 s = trapOut s := rfl

/-- The low bits of a word, as the routines read them and as the statements write them. -/
theorem field_zero (w : Word) {n : Nat} (hn : n ≤ 16) : field w 0 n = w.setWidth n :=
  (BitVec.setWidth_eq_extractLsb' hn).symm

/-- OUT appends one byte to the output and changes no other field (R113). -/
theorem trapOut_eq (s : State) :
    trapOut s = .next { s with output := s.output ++ [(s.reg 0).setWidth 8] } := by
  rw [trapOut, field_zero _ (by decide)]
  rfl

/-- Settles O33: OUT reads R0 and the output after TRAP entry, which leaves both as they were, since R0 is not R7. -/
theorem outWritesLowByteOfR0 : Obligations.OutWritesLowByteOfR0 := by
  unfold Obligations.OutWritesLowByteOfR0
  intro s
  have hreg : s.trapEntry.reg 0 = s.reg 0 := State.reg_trapEntry_ne s (by decide)
  rw [exec_trap, trapDispatch_out, trapOut_eq, hreg, State.trapEntry_output, State.trapEntry_eq_linked]

end Sys2Proof.Machine
end

section
/-! SUPPORT. The two opcodes that abort: which words decode to them, what executing them gives, and the statement about
them (family 44_fatal.md). -/

namespace Sys2Proof

/-- The bits of an opcode are bits 12 to 15 of its word (R66). -/
theorem bit_of_opcode {w : Word} {op : BitVec 4} (hop : field w 12 4 = op) {k : Nat} (hk : k < 4) :
    bit w (12 + k) = op.getLsbD k := by
  rw [← hop, getLsbD_field, decide_eq_true hk, Bool.true_and]

/-- The four opcode bits alone select RTI; no other bit of the word is read (R119). -/
theorem decode_eq_rti {w : Word} (hop : field w 12 4 = 8) : decode w = .rti := by
  have h15 : bit w 15 = true := bit_of_opcode hop (k := 3) (by decide)
  have h14 : bit w 14 = false := bit_of_opcode hop (k := 2) (by decide)
  have h13 : bit w 13 = false := bit_of_opcode hop (k := 1) (by decide)
  have h12 : bit w 12 = false := bit_of_opcode hop (k := 0) (by decide)
  rw [decode, h15, h14, h13, h12]

/-- The four opcode bits alone select RES; no other bit of the word is read (R120). -/
theorem decode_eq_res {w : Word} (hop : field w 12 4 = 13) : decode w = .res := by
  have h15 : bit w 15 = true := bit_of_opcode hop (k := 3) (by decide)
  have h14 : bit w 14 = true := bit_of_opcode hop (k := 2) (by decide)
  have h13 : bit w 13 = false := bit_of_opcode hop (k := 1) (by decide)
  have h12 : bit w 12 = true := bit_of_opcode hop (k := 0) (by decide)
  rw [decode, h15, h14, h13, h12]

end Sys2Proof

namespace Sys2Proof.Machine

/-- RTI aborts in every state, with the state's console left (R119, R123). -/
theorem exec_rti (s : State) : exec .rti s = .fault (.illegalOpcode 8 s.console) := rfl

/-- RES aborts in every state, with the state's console left (R120, R123). -/
theorem exec_res (s : State) : exec .res s = .fault (.illegalOpcode 13 s.console) := rfl

/-- A running machine executes the instruction it fetches, in the state the fetch leaves (R145). -/
theorem step_running {s : State} (hrun : s.status = .running) :
    step s = exec (decode (s.memRead s.pc).1) { (s.memRead s.pc).2 with pc := s.pc + 1 } := by
  rw [step, hrun]
  rfl

/-- Settles O41: the opcode bits of a word decide that it decodes to RTI or RES, both abort in every state, and a running
step executes what the fetched word decodes to. -/
theorem rtiAndResAbort : Obligations.RtiAndResAbort := by
  unfold Obligations.RtiAndResAbort
  intro w s
  refine ⟨⟨_, exec_rti s⟩, ⟨_, exec_res s⟩, decode_eq_rti, decode_eq_res, fun hrun hop => ?_, fun hrun hop => ?_⟩
  · rw [step_running hrun, decode_eq_rti hop]
    exact ⟨_, exec_rti _⟩
  · rw [step_running hrun, decode_eq_res hop]
    exact ⟨_, exec_res _⟩

end Sys2Proof.Machine
end

section
/-! SUPPORT. The images of a boot: what their bytes parse to, what loading them does to each cell, the first step after
it, and the statements about them (family 70_reset_and_hazards.md). -/

namespace Sys2Proof.Machine

open Sys2Proof.Claims

/-- Settles O42: `step_running`. -/
theorem stepFetchesDecodesExecutes : Obligations.StepFetchesDecodesExecutes := by
  unfold Obligations.StepFetchesDecodesExecutes
  intro s hrun
  exact step_running hrun

/-! ### The bytes of an image -/

theorem highByte_eq_field (w : Word) : highByte w = field w 8 8 := by
  apply BitVec.eq_of_getLsbD_eq
  intro k hk
  rw [getLsbD_field, highByte, BitVec.getLsbD_setWidth, BitVec.getLsbD_ushiftRight, bit]

theorem lowByte_eq_field (w : Word) : lowByte w = field w 0 8 :=
  (field_zero w (by decide)).symm

/-- Reading a word back from its two bytes, high byte first. -/
theorem highByte_append_lowByte (w : Word) : (highByte w ++ lowByte w : BitVec 16) = w := by
  rw [highByte_eq_field, lowByte_eq_field, append_fields]

theorem bigEndianWords_flatMap (ws : List Word) :
    bigEndianWords (ws.flatMap (fun w => [highByte w, lowByte w])) = some ws := by
  induction ws with
  | nil => rfl
  | cons w ws ih =>
    rw [List.flatMap_cons, List.cons_append, List.cons_append, List.nil_append, bigEndianWords, ih,
      highByte_append_lowByte, Option.map_some]

theorem parseImage_imageBytes (origin : Word) (ws : List Word) :
    parseImage (some (imageBytes origin ws)) = .ok (origin, ws) := by
  rw [parseImage, imageBytes, bigEndianWords_flatMap]

/-! ### The cells after loading -/

section
variable {mode : LoadOverflow} {k : Nat}

/-- A word that has a cell is written there, and the rest is loaded from the next address. -/
theorem loadWords_cons_stored (h : k < 65536 ∨ mode = .wrap) (w : Word) (ws : List Word) (m : Memory) :
    loadWords mode k (w :: ws) m = loadWords mode (k + 1) ws (m.write (BitVec.ofNat 16 k) w) := by
  rw [loadWords, if_pos h]

/-- A word past 0xFFFF that truncation drops ends the loading. -/
theorem loadWords_cons_dropped (h : ¬ (k < 65536 ∨ mode = .wrap)) (w : Word) (ws : List Word) (m : Memory) :
    loadWords mode k (w :: ws) m = m := by
  rw [loadWords, if_neg h]

end

/-- A cell to which no word is stored keeps its contents. -/
theorem read_loadWords_of_not_stored {mode : LoadOverflow} {a : Word} (ws : List Word) (k : Nat) (m : Memory)
    (h : ∀ j < ws.length, BitVec.ofNat 16 (k + j) = a → ¬ (k + j < 65536 ∨ mode = .wrap)) :
    (loadWords mode k ws m).read a = m.read a := by
  induction ws generalizing k m with
  | nil => rfl
  | cons w ws ih =>
    by_cases hk : k < 65536 ∨ mode = .wrap
    · have hne : a ≠ BitVec.ofNat 16 k := fun ha => h 0 (by simp) ha.symm hk
      have hrest : ∀ j < ws.length, BitVec.ofNat 16 (k + 1 + j) = a → ¬ (k + 1 + j < 65536 ∨ mode = .wrap) := by
        intro j hj
        rw [Nat.add_right_comm]
        exact h (j + 1) (by simpa using hj)
      rw [loadWords_cons_stored hk, ih _ _ hrest, Memory.read_write, if_neg hne]
    · rw [loadWords_cons_dropped hk]

/-- When the words fit below 0x10000, the cell at `k + j` holds word `j`. -/
theorem read_loadWords_of_fits (mode : LoadOverflow) (a : Word) (ws : List Word) (k : Nat) (m : Memory)
    (hfit : k + ws.length ≤ 65536) :
    (loadWords mode k ws m).read a =
      if k ≤ a.toNat ∧ a.toNat < k + ws.length then ws.getD (a.toNat - k) 0 else m.read a := by
  induction ws generalizing k m with
  | nil =>
    have hout : ¬ (k ≤ a.toNat ∧ a.toNat < k + 0) := by omega
    exact (if_neg hout).symm
  | cons w ws ih =>
    rw [List.length_cons] at hfit ⊢
    have hk : k < 65536 := by omega
    have hfirst : a = BitVec.ofNat 16 k ↔ a.toNat = k := by
      rw [← BitVec.toNat_inj, BitVec.toNat_ofNat, Nat.mod_eq_of_lt hk]
    rw [loadWords_cons_stored (.inl hk), ih _ _ (by omega), Memory.read_write]
    simp only [hfirst]
    rcases Nat.lt_trichotomy a.toNat k with hlt | heq | hgt
    · rw [if_neg (by omega), if_neg (by omega), if_neg (by omega)]
    · rw [if_neg (by omega), if_pos heq, if_pos (by omega), heq, Nat.sub_self, List.getD_cons_zero]
    · have hsub : a.toNat - k = a.toNat - (k + 1) + 1 := by omega
      have hne : a.toNat ≠ k := by omega
      have hrange : (k + 1 ≤ a.toNat ∧ a.toNat < k + 1 + ws.length) ↔
          (k ≤ a.toNat ∧ a.toNat < k + (ws.length + 1)) := by omega
      simp only [hrange, if_neg hne, hsub, List.getD_cons_succ]

/-- Settles O57: the bytes are read back as their words, and the words fill the cells of `read_loadWords_of_fits`. -/
theorem imageWordsAreLoadedFromOrigin : Obligations.ImageWordsAreLoadedFromOrigin := by
  unfold Obligations.ImageWordsAreLoadedFromOrigin
  intro origin ws
  exact ⟨parseImage_imageBytes origin ws, fun hfit mode m a => read_loadWords_of_fits mode a ws _ m hfit⟩

/-! ### Boot -/

/-- What it takes for a list of images to load: the first parses, and the others load on its words. -/
theorem exists_of_loadImages_cons_ok {f : ImageFile} {fs : List ImageFile} {m m' : Memory}
    (h : loadImages (f :: fs) m = .ok m') :
    ∃ origin ws, parseImage f = .ok (origin, ws) ∧
      loadImages fs (loadWords Config.loadOverflow origin.toNat ws m) = .ok m' := by
  rw [loadImages] at h
  split at h
  next => cases h
  next origin ws hparse => exact ⟨origin, ws, hparse, h⟩

/-- A cell to which no image stores a word keeps its contents. -/
theorem read_loadImages_of_not_imageWrites {a : Word} (files : List ImageFile) {m m' : Memory}
    (hload : loadImages files m = .ok m') (hnone : ∀ f ∈ files, ¬ imageWrites f a) : m'.read a = m.read a := by
  induction files generalizing m with
  | nil =>
    cases hload
    rfl
  | cons f fs ih =>
    obtain ⟨hf, hfs⟩ := List.forall_mem_cons.mp hnone
    obtain ⟨origin, ws, hparse, hrest⟩ := exists_of_loadImages_cons_ok hload
    rw [ih hrest hfs]
    exact read_loadWords_of_not_stored ws _ m fun j hj ha hstored => hf ⟨origin, ws, j, hparse, hj, ha, hstored⟩

/-- A booted state is the reset state with the memory the images load into (R139). -/
theorem exists_of_boot_ok {files : List ImageFile} {s : State} (h : boot files = .ok s) :
    ∃ m, loadImages files State.reset.mem = .ok m ∧ s = { State.reset with mem := m } := by
  cases files with
  | nil => cases h
  | cons f fs =>
    rw [boot] at h
    split at h
    next => cases h
    next m hload =>
      cases h
      exact ⟨m, hload, rfl⟩

/-- The word 0x0000 is the no-op of R90. -/
theorem decode_zero : decode 0 = .nop := by decide

/-- With no condition bit BR is not taken, whatever the flags (R97). -/
theorem branchTaken_noBits (c : Cond) : branchTaken false false false c = false := by
  cases c <;> rfl

/-- A no-op leaves the state as the fetch left it. -/
theorem exec_nop (s : State) : exec .nop s = .next s := by
  have hexec : exec .nop s = execBr false false false 0 s := rfl
  rw [hexec, execBr, branchTaken_noBits]
  rfl

/-- Away from KBSR a running step executes the word stored at `pc`, with no effect of the fetch but on `pc`. -/
theorem step_running_plain {s : State} (hrun : s.status = .running) (hpc : s.pc ≠ kbsrAddr) :
    step s = exec (decode (s.mem.read s.pc)) { s with pc := s.pc + 1 } := by
  rw [step_running hrun, State.memRead_plain s hpc]

/-- Settles O56: a booted state is the reset state but for its memory, so it starts at 0x3000; with no image storing
there, that cell is still the zero of reset, a no-op. -/
theorem bootStartsAt3000WhateverTheImages : Obligations.BootStartsAt3000WhateverTheImages := by
  unfold Obligations.BootStartsAt3000WhateverTheImages
  intro files s hboot
  obtain ⟨m, hload, rfl⟩ := exists_of_boot_ok hboot
  have hpc : (0x3000 : Word) ≠ kbsrAddr := by decide
  have hstep := step_running_plain (s := { State.reset with mem := m }) rfl hpc
  refine ⟨rfl, rfl, hstep, fun hnone => ?_⟩
  have hzero : m.read 0x3000 = 0 := read_loadImages_of_not_imageWrites files hload hnone
  refine ⟨hzero, ?_⟩
  calc step { State.reset with mem := m }
      = exec (decode (m.read 0x3000)) { State.reset with pc := 0x3001, mem := m } := hstep
    _ = .next { State.reset with pc := 0x3001, mem := m } := by rw [hzero, decode_zero, exec_nop]

end Sys2Proof.Machine
end

section
/-! SUPPORT. Decoding what was encoded, the bits a decode depends on, the row a word selects and the range of a decoded
operand, and the statements about them (family other: 30_encoding.md). -/

namespace Sys2Proof

/-- Settles O1: by the constructor. `decode` finds the opcode and mode bits of the row and then each field where `encode`
put it; an immediate or offset, cut to its field, comes back because it fits that field. -/
theorem decodeEncodeRoundTrip : Obligations.DecodeEncodeRoundTrip := by
  unfold Obligations.DecodeEncodeRoundTrip
  intro i hwf
  cases i <;>
    simp (disch := omega) [decode, encode, putOp, boolBit, bit_put, regField, field_put_self, field_put_above,
      field_put_below]
  case addImm | andImm => exact sext_setWidth (n := 5) (by decide) hwf
  case ldr | str => exact sext_setWidth (n := 6) (by decide) hwf
  case br | ld | st | ldi | sti | lea => exact sext_setWidth (n := 9) (by decide) hwf
  case jsr => exact sext_setWidth (n := 11) (by decide) hwf

/-! ### The bits a decode depends on -/

section
variable {w w' m : Word}

/-- A bit under the mask is the same in two words that agree on the mask. -/
theorem bit_eq_of_and_eq (h : w' &&& m = w &&& m) {i : Nat} (hm : bit m i = true) : bit w' i = bit w i := by
  have hbit : (bit w' i && bit m i) = (bit w i && bit m i) := by
    rw [bit, bit, bit, ← BitVec.getLsbD_and, h, BitVec.getLsbD_and]
  simpa [hm] using hbit

/-- A field under the mask is the same in two words that agree on the mask. -/
theorem field_eq_of_and_eq (h : w' &&& m = w &&& m) {lo n : Nat} (hm : field m lo n = BitVec.allOnes n) :
    field w' lo n = field w lo n := by
  apply BitVec.eq_of_getLsbD_eq
  intro i hi
  have hbit : bit m (lo + i) = true := by
    have hones := getLsbD_field m lo n i
    rw [hm, BitVec.getLsbD_allOnes, decide_eq_true hi, Bool.true_and] at hones
    exact hones.symm
  rw [getLsbD_field, getLsbD_field, bit_eq_of_and_eq h hbit]

end


/-- Every format reads the four opcode bits. -/
theorem field_readBits_opcode (i : Instr) : field i.readBits 12 4 = BitVec.allOnes 4 := by
  cases i <;> simp [Instr.readBits, field]

/-- Words that agree on what one of them is read by have the same format, so they are read alike. -/
theorem readBits_decode_eq {w w' : Word} (h : w' &&& (decode w).readBits = w &&& (decode w).readBits) :
    (decode w').readBits = (decode w).readBits := by
  have hop : ∀ k < 4, bit w' (12 + k) = bit w (12 + k) := fun k hk => by
    rw [bit_of_opcode (field_eq_of_and_eq h (field_readBits_opcode _)) hk, getLsbD_field, decide_eq_true hk,
      Bool.true_and]
  have h15 : bit w' 15 = bit w 15 := hop 3 (by decide)
  have h14 : bit w' 14 = bit w 14 := hop 2 (by decide)
  have h13 : bit w' 13 = bit w 13 := hop 1 (by decide)
  have h12 : bit w' 12 = bit w 12 := hop 0 (by decide)
  unfold decode at h ⊢
  rw [h15, h14, h13, h12]
  clear hop h15 h14 h13 h12
  split <;> rename_i h15 h14 h13 h12 <;> simp only [h15, h14, h13, h12] at h ⊢
  case h_2 | h_6 => -- ADD and AND
    have h5 : bit w' 5 = bit w 5 := bit_eq_of_and_eq h (by split <;> simp [Instr.readBits, bit])
    rw [h5]
    split <;> simp only [Instr.readBits]
  case h_5 => -- JSR and JSRR
    have h11 : bit w' 11 = bit w 11 := bit_eq_of_and_eq h (by split <;> simp [Instr.readBits, bit])
    rw [h11]
    split <;> simp only [Instr.readBits]
  all_goals simp only [Instr.readBits]

/-! ### The range of a decoded operand -/

/-- An extended field of `n` bits lies in the range of R80. -/
theorem fitsSigned_sext {n : Nat} (h16 : n ≤ 16) (v : BitVec n) : fitsSigned n (sext v) = true := by
  have hint : (sext v).toInt = v.toInt := BitVec.toInt_signExtend_of_le h16
  rw [fitsSigned, hint, Bool.and_eq_true, decide_eq_true_eq, decide_eq_true_eq]
  exact ⟨BitVec.le_toInt v, BitVec.toInt_lt⟩

/-- Settles O5: an immediate or offset of a decoded instruction is an extended field. -/
theorem decodedOperandsAreInRange : Obligations.DecodedOperandsAreInRange := by
  unfold Obligations.DecodedOperandsAreInRange decode
  intro w
  split
  case h_1 | h_3 | h_4 | h_11 | h_12 | h_15 => exact fitsSigned_sext (by decide) _ -- BR, LD, ST, LDI, STI, LEA
  case h_7 | h_8 => exact fitsSigned_sext (by decide) _ -- LDR, STR
  case h_2 | h_6 => -- ADD, AND
    split
    · exact fitsSigned_sext (by decide) _
    · rfl
  case h_5 => -- JSR, JSRR
    split
    · exact fitsSigned_sext (by decide) _
    · rfl
  all_goals rfl

/-- Settles O3: the two words have the same read bits, so they encode to the same word once decoded (O2), and decoding
that word gives both instructions back (O1). -/
theorem unreadBitsDoNotMatter : Obligations.UnreadBitsDoNotMatter := by
  unfold Obligations.UnreadBitsDoNotMatter
  intro w w' h
  have hencode : encode (decode w') = encode (decode w) := by
    rw [encodeDecodeKeepsReadBits, encodeDecodeKeepsReadBits, readBits_decode_eq h, h]
  calc decode w' = decode (encode (decode w')) := (decodeEncodeRoundTrip _ (decodedOperandsAreInRange w')).symm
    _ = decode (encode (decode w)) := by rw [hencode]
    _ = decode w := decodeEncodeRoundTrip _ (decodedOperandsAreInRange w)

/-! ### The row a word selects -/

/-- The word with these bits at 15, 14, 13, 12, 11 and 5, and zero elsewhere. -/
def rowBits (b15 b14 b13 b12 b11 b5 : Bool) : Word :=
  put 15 (boolBit b15) ||| put 14 (boolBit b14) ||| put 13 (boolBit b13) ||| put 12 (boolBit b12) |||
    put 11 (boolBit b11) ||| put 5 (boolBit b5)

/-- The table, at each of the 64 choices of the bits its masks name: one row, that of the decoded instruction. -/
theorem selected_rowBits : ∀ b15 b14 b13 b12 b11 b5 : Bool,
    (opcodeTable.filter (fun r => r.selects (rowBits b15 b14 b13 b12 b11 b5))).map (fun r => (r.mnemonic, r.format)) =
      [((decode (rowBits b15 b14 b13 b12 b11 b5)).mnemonic, (decode (rowBits b15 b14 b13 b12 b11 b5)).format)] := by
  decide

/-- A word cut to the bits the table's masks name. -/
theorem rowBits_eq_and (w : Word) :
    rowBits (bit w 15) (bit w 14) (bit w 13) (bit w 12) (bit w 11) (bit w 5) = w &&& 0xF820 :=
  or_eq_and_or (or_eq_and_or (or_eq_and_or (or_eq_and_or (or_eq_and_or (put_boolBit w 15) (put_boolBit w 14))
    (put_boolBit w 13)) (put_boolBit w 12)) (put_boolBit w 11)) (put_boolBit w 5)

/-- The opcode, bit 11 and bit 5 decide which row's instruction a word decodes to. -/
theorem row_decode_eq {w w' : Word} (h : ∀ k ∈ [15, 14, 13, 12, 11, 5], bit w' k = bit w k) :
    ((decode w').mnemonic, (decode w').format) = ((decode w).mnemonic, (decode w).format) := by
  unfold decode
  rw [h 15 (by decide), h 14 (by decide), h 13 (by decide), h 12 (by decide), h 11 (by decide), h 5 (by decide)]
  split
  case h_2 | h_5 | h_6 => split <;> simp only [Instr.mnemonic, Instr.format]
  all_goals simp only [Instr.mnemonic, Instr.format]

/-- Settles O4: a word selects the rows, and decodes to an instruction of the row, that it would with every bit but
15 to 11 and 5 zero; those words are `selected_rowBits`. -/
theorem everyWordSelectsExactlyItsRow : Obligations.EveryWordSelectsExactlyItsRow := by
  unfold Obligations.EveryWordSelectsExactlyItsRow
  intro w
  have hagree : rowBits (bit w 15) (bit w 14) (bit w 13) (bit w 12) (bit w 11) (bit w 5) &&& 0xF820 = w &&& 0xF820 := by
    rw [rowBits_eq_and, BitVec.and_assoc, BitVec.and_self]
  have hbits : ∀ k ∈ [15, 14, 13, 12, 11, 5], bit 0xF820 k = true := by decide
  rw [Laws.selected_eq_rowsOf, ← field_eq_of_and_eq hagree (by decide : field 0xF820 12 4 = BitVec.allOnes 4),
    ← field_eq_of_and_eq hagree (by decide : field 0xF820 11 1 = BitVec.allOnes 1),
    ← field_eq_of_and_eq hagree (by decide : field 0xF820 5 1 = BitVec.allOnes 1), ← Laws.selected_eq_rowsOf,
    ← row_decode_eq fun k hk => bit_eq_of_and_eq hagree (hbits k hk)]
  exact selected_rowBits _ _ _ _ _ _

/-- Settles O6: the decoder is evaluated on the eighteen words. -/
theorem sampleWordsDecodeAsListed : Obligations.SampleWordsDecodeAsListed := by
  unfold Obligations.SampleWordsDecodeAsListed
  decide

end Sys2Proof
end

section
/-! SUPPORT. The registers and the keyboard poll, and the statements about them (family other: 10_state.md,
20_memory.md). -/

namespace Sys2Proof.Machine

open Sys2Proof.Claims

/-- Settles O12: a register reads what was written to it, and any other register reads as before. -/
theorem registerFileReadAfterWrite : Obligations.RegisterFileReadAfterWrite := by
  unfold Obligations.RegisterFileReadAfterWrite
  intro s r r' v
  refine ⟨?_, rfl⟩
  by_cases h : r' = r
  · rw [if_pos h, h, State.reg_setReg_self]
  · rw [if_neg h, State.reg_setReg_ne s v h]

/-! ### The poll -/

/-- The draw of a poll, whether it was drawn before or is free. -/
theorem State.drawPoll_eq (s : State) :
    s.drawPoll = (s.polls.head?.getD (Config.pollReady s.pollCount),
      { s with polls := s.polls.tail, pollCount := if s.polls = [] then s.pollCount + 1 else s.pollCount }) := by
  obtain ⟨r, rs, hp, hd⟩ | ⟨hp, hd⟩ := s.drawPoll_cases
  · simp [hp, hd]
  · rw [hd]
    simp [hp]

/-- The next byte, when there is one, is the first of the input. -/
theorem State.takeInput_eq (s : State) : s.takeInput = (s.input.head?, { s with input := s.input.tail }) := by
  obtain ⟨b, bs, hi, ht⟩ | ⟨hi, ht⟩ := s.takeInput_cases
  · rw [ht, hi]
    rfl
  · rw [ht, hi, List.head?_nil, List.tail_nil, ← hi]

/-- Settles O18: the draw decides whether the next byte is taken. -/
theorem pollDeliversTheNextByte : Obligations.PollDeliversTheNextByte := by
  unfold Obligations.PollDeliversTheNextByte
  intro s
  rw [State.kbPoll, State.drawPoll_eq]
  by_cases hr : s.polls.head?.getD (Config.pollReady s.pollCount) = true
  · rw [if_pos hr, if_pos hr, if_pos hr, State.takeInput_eq]
    exact ⟨rfl, rfl⟩
  · rw [if_neg hr, if_neg hr, if_neg hr]
    exact ⟨rfl, rfl⟩

/-- A poll leaves memory to the read that makes it. -/
@[simp] theorem State.kbPoll_mem (s : State) : s.kbPoll.2.mem = s.mem := by
  obtain ⟨ps, n, ⟨b, bs, -, h⟩ | h⟩ := s.kbPoll_cases <;> rw [h]

theorem State.mem_of_kbPoll {s t : State} {o : Option Byte} (h : s.kbPoll = (o, t)) : t.mem = s.mem := by
  rw [← s.kbPoll_mem, h]

/-- A ready poll sets KBSR and latches the byte in KBDR (R50). -/
theorem State.pollKeyboard_ready {s t : State} {b : Byte} (h : s.kbPoll = (some b, t)) :
    s.pollKeyboard = { t with mem := (s.mem.write 0xFE00 0x8000).write 0xFE02 (b.setWidth 16) } := by
  rw [State.pollKeyboard, h, ← State.mem_of_kbPoll h]
  rfl

/-- A poll that is not ready clears KBSR (R50). -/
theorem State.pollKeyboard_notReady {s t : State} (h : s.kbPoll = (none, t)) :
    s.pollKeyboard = { t with mem := s.mem.write 0xFE00 0 } := by
  rw [State.pollKeyboard, h, ← State.mem_of_kbPoll h]
  rfl

/-- A read of KBSR answers the cell that its poll has just written. -/
theorem State.memRead_kbsr_ready {s t : State} {b : Byte} (h : s.kbPoll = (some b, t)) :
    s.memRead 0xFE00 =
      (0x8000, { t with mem := (s.mem.write 0xFE00 0x8000).write 0xFE02 (b.setWidth 16) }) := by
  have hread : s.memRead 0xFE00 = (s.pollKeyboard.mem.read 0xFE00, s.pollKeyboard) := s.memRead_kbsr
  rw [hread, State.pollKeyboard_ready h]
  simp [Memory.read_write]

theorem State.memRead_kbsr_notReady {s t : State} (h : s.kbPoll = (none, t)) :
    s.memRead 0xFE00 = (0, { t with mem := s.mem.write 0xFE00 0 }) := by
  have hread : s.memRead 0xFE00 = (s.pollKeyboard.mem.read 0xFE00, s.pollKeyboard) := s.memRead_kbsr
  rw [hread, State.pollKeyboard_notReady h]
  simp [Memory.read_write]

/-- Settles O17: the two answers of a KBSR read, and the cells after the poll's writes. -/
theorem kbsrReadPolls : Obligations.KbsrReadPolls := by
  unfold Obligations.KbsrReadPolls
  intro s
  refine ⟨fun b t h => ?_, fun t h => ?_⟩
  · rw [State.memRead_kbsr_ready h]
    refine ⟨rfl, rfl, fun a => ?_⟩
    rw [Memory.read_write, Memory.read_write]
    by_cases ha : a = 0xFE00
    · rw [ha]
      rfl
    · rw [if_neg ha, if_neg ha]
  · rw [State.memRead_kbsr_notReady h]
    exact ⟨rfl, rfl, fun a => by rw [Memory.read_write]⟩

end Sys2Proof.Machine
end

section
/-! SUPPORT. What each instruction but TRAP answers, and the statements about them (family other: 40_operate.md,
41_control.md, 42_load_store.md). -/

namespace Sys2Proof.Machine

open Sys2Proof.Claims

/-- The model's result with its flags is the statements' one. -/
theorem State.writeResult_eq_withResult (s : State) (dr : Reg) (v : Word) :
    s.writeResult dr v = withResult s dr v := State.writeResult_eq s dr v

/-- A read changes no register. -/
@[simp] theorem State.reg_memRead (s : State) (a : Word) (r : Reg) : (s.memRead a).2.reg r = s.reg r := by
  rw [State.reg, State.memRead_regs, State.reg]

/-! ### Operate and LEA -/

/-- Settles O21: the result and its flags, by `State.writeResult_eq`. -/
theorem addCompletesWithSum : Obligations.AddCompletesWithSum := by
  unfold Obligations.AddCompletesWithSum
  intro dr sr1 sr2 imm s
  exact ⟨congrArg _ (s.writeResult_eq_withResult dr _), congrArg _ (s.writeResult_eq_withResult dr _)⟩

theorem exec_not (dr sr : Reg) (s : State) : exec (.not dr sr) s = .next (withResult s dr (s.reg sr ^^^ 0xFFFF)) := by
  have hones : s.reg sr ^^^ 0xFFFF = ~~~ s.reg sr := BitVec.xor_allOnes
  rw [hones, ← State.writeResult_eq_withResult]
  rfl

/-- Settles O22: as ADD; the inverse of every bit is the exclusive or with ones. -/
theorem andAndNotCompleteBitwise : Obligations.AndAndNotCompleteBitwise := by
  unfold Obligations.AndAndNotCompleteBitwise
  intro dr sr1 sr2 imm s
  exact ⟨congrArg _ (s.writeResult_eq_withResult dr _), congrArg _ (s.writeResult_eq_withResult dr _), exec_not dr sr1 s⟩

/-- Settles O23: the address is the result; no operation on memory is made. -/
theorem leaCompletesWithAddress : Obligations.LeaCompletesWithAddress := by
  unfold Obligations.LeaCompletesWithAddress
  intro dr off s
  exact congrArg _ (s.writeResult_eq_withResult dr _)

/-! ### Loads -/

theorem loadFrom_eq (dr : Reg) (ea : Word) (s : State) :
    loadFrom dr ea s = .next (withResult (s.memRead ea).2 dr (s.memRead ea).1) := by
  rw [loadFrom, State.writeResult_eq_withResult]

/-- A load away from KBSR takes the stored word and changes nothing but DR and the flags. -/
theorem loadFrom_plain (dr : Reg) {ea : Word} (s : State) (h : ea ≠ 0xFE00) :
    loadFrom dr ea s = .next (withResult s dr (s.mem.read ea)) := by
  rw [loadFrom_eq, State.memRead_plain s h]

/-- Settles O24: both load from their effective address. -/
theorem ldAndLdrCompleteWithLoadedWord : Obligations.LdAndLdrCompleteWithLoadedWord := by
  unfold Obligations.LdAndLdrCompleteWithLoadedWord
  intro dr base off s
  exact ⟨loadFrom_eq dr _ s, loadFrom_eq dr _ s, loadFrom_plain dr s, loadFrom_plain dr s⟩

/-- LDI loads from the pointer it reads, in the state that read leaves (R104). -/
theorem exec_ldi (dr : Reg) (off : Word) (s : State) :
    exec (.ldi dr off) s = loadFrom dr (s.memRead (s.pc + off)).1 (s.memRead (s.pc + off)).2 := rfl

/-- Settles O25: a load from the pointer; when the pointer read does not poll it leaves the state as it was. -/
theorem ldiCompletesThroughPointer : Obligations.LdiCompletesThroughPointer := by
  unfold Obligations.LdiCompletesThroughPointer
  intro dr off s
  refine ⟨?_, fun hptr hea => ?_⟩
  · rw [exec_ldi, loadFrom_eq]
  · rw [exec_ldi, State.memRead_plain s hptr, loadFrom_plain dr s hea]

/-! ### Stores -/

theorem exec_st (sr : Reg) (off : Word) (s : State) :
    exec (.st sr off) s = .next (s.memWrite (s.pc + off) (s.reg sr)) := rfl

theorem exec_str (sr base : Reg) (off : Word) (s : State) :
    exec (.str sr base off) s = .next (s.memWrite (s.reg base + off) (s.reg sr)) := rfl

/-- STI stores where its pointer says; the pointer read leaves the registers as they were (R108). -/
theorem exec_sti (sr : Reg) (off : Word) (s : State) :
    exec (.sti sr off) s =
      .next ((s.memRead (s.pc + off)).2.memWrite (s.memRead (s.pc + off)).1 (s.reg sr)) := by
  rw [← State.reg_memRead s (s.pc + off) sr]
  rfl

/-- Settles O26: each is one store. -/
theorem stAndStrCompleteWithStore : Obligations.StAndStrCompleteWithStore := by
  unfold Obligations.StAndStrCompleteWithStore
  intro sr base off s
  exact ⟨⟨_, exec_st sr off s, rfl, Memory.read_write _ _ _⟩, ⟨_, exec_str sr base off s, rfl, Memory.read_write _ _ _⟩⟩

/-- Settles O27: one store, in the state the pointer read leaves. -/
theorem stiCompletesThroughPointer : Obligations.StiCompletesThroughPointer := by
  unfold Obligations.StiCompletesThroughPointer
  intro sr off s
  exact ⟨_, exec_sti sr off s, rfl, Memory.read_write _ _ _⟩

/-! ### Control transfer -/

/-- BR's mask meets the flags exactly when a named condition holds (R97). -/
theorem branchTaken_iff (n z p : Bool) (c : Cond) :
    branchTaken n z p c = true ↔ (n = true ∧ c = .n) ∨ (z = true ∧ c = .z) ∨ (p = true ∧ c = .p) := by
  cases c <;> revert n z p <;> decide

theorem exec_br (n z p : Bool) (off : Word) (s : State) :
    exec (.br n z p off) s = .next (s.setPc (if branchTaken n z p s.cond then s.pc + off else s.pc)) := rfl

/-- Settles O28: `branchTaken_iff` in BR's test. -/
theorem brCompletesOnMatchingFlag : Obligations.BrCompletesOnMatchingFlag := by
  unfold Obligations.BrCompletesOnMatchingFlag
  intro n z p off s
  simp only [exec_br, branchTaken_iff]
  rfl

/-- Settles O29: JMP only moves the register to `pc`. -/
theorem jmpCompletesAtRegister : Obligations.JmpCompletesAtRegister := by
  unfold Obligations.JmpCompletesAtRegister
  intro base s
  rfl

/-- Settles O30: the link does not change the `pc` that the offset is added to. -/
theorem jsrCompletesWithLink : Obligations.JsrCompletesWithLink := by
  unfold Obligations.JsrCompletesWithLink
  intro off s
  rfl

theorem exec_jsr (off : Word) (s : State) : exec (.jsr off) s = .next (s.link.setPc (s.pc + off)) := rfl

theorem exec_jsrr (base : Reg) (s : State) : exec (.jsrr base) s = .next (s.link.setPc (s.link.reg base)) := rfl

theorem State.link_reg (s : State) (r : Reg) : s.link.reg r = if r = 7 then s.pc else s.reg r :=
  (registerFileReadAfterWrite s 7 r s.pc).1

/-- Settles O31: the base is read after the link, so base R7 reads the incremented `pc`. -/
theorem jsrrCompletesWithLinkThenBase : Obligations.JsrrCompletesWithLinkThenBase := by
  unfold Obligations.JsrrCompletesWithLinkThenBase
  intro base s
  rw [exec_jsrr, State.link_reg]
  rfl

end Sys2Proof.Machine
end

section
/-! SUPPORT. What each TRAP routine but the string ones answers, and the statements about them (family other:
43_trap.md). -/

namespace Sys2Proof.Machine

open Sys2Proof.Claims

/-! ### The state after TRAP entry: only R7 may differ -/

@[simp] theorem linked_pc (s : State) : (linked s).pc = s.pc := by rw [← s.trapEntry_eq_linked, s.trapEntry_pc]
@[simp] theorem linked_cond (s : State) : (linked s).cond = s.cond := by rw [← s.trapEntry_eq_linked, s.trapEntry_cond]
@[simp] theorem linked_status (s : State) : (linked s).status = s.status := by
  rw [← s.trapEntry_eq_linked, s.trapEntry_status]
@[simp] theorem linked_mem (s : State) : (linked s).mem = s.mem := by rw [← s.trapEntry_eq_linked, s.trapEntry_mem]
@[simp] theorem linked_input (s : State) : (linked s).input = s.input := by
  rw [← s.trapEntry_eq_linked, s.trapEntry_input]
@[simp] theorem linked_output (s : State) : (linked s).output = s.output := by
  rw [← s.trapEntry_eq_linked, s.trapEntry_output]
theorem linked_reg_ne (s : State) {r : Reg} (h : r ≠ 7) : (linked s).reg r = s.reg r := by
  rw [← s.trapEntry_eq_linked, s.reg_trapEntry_ne h]

/-! ### The dispatch table (R111, R118) -/

/-- A TRAP runs its routine from the state TRAP entry leaves, in the words of the statements. -/
theorem exec_trap_linked (v : BitVec 8) (s : State) : exec (.trap v) s = trapDispatch v (linked s) := by
  rw [exec_trap, State.trapEntry_eq_linked]

theorem trapDispatch_getc (s : State) : trapDispatch 0x20 s = trapGetc s := rfl
theorem trapDispatch_puts (s : State) : trapDispatch 0x22 s = trapString putsBytes s := by
  rw [trapDispatch, if_neg (by decide), if_neg (by decide), if_pos rfl, trapPuts]
theorem trapDispatch_in (s : State) : trapDispatch 0x23 s = trapIn s := rfl
theorem trapDispatch_putsp (s : State) : trapDispatch 0x24 s = trapString putspBytes s := by
  rw [trapDispatch, if_neg (by decide), if_neg (by decide), if_neg (by decide), if_neg (by decide), if_pos rfl,
    trapPutsp]
theorem trapDispatch_halt (s : State) : trapDispatch 0x25 s = .next ((s.out Config.haltNotice).halt) := rfl

/-- Every vector is one of the six of the table, or lies outside them. -/
theorem trapVector_cases (v : BitVec 8) :
    v = 0x20 ∨ v = 0x21 ∨ v = 0x22 ∨ v = 0x23 ∨ v = 0x24 ∨ v = 0x25 ∨ (v.toNat < 0x20 ∨ 0x25 < v.toNat) := by
  bv_omega

theorem trapDispatch_unmapped {v : BitVec 8} (h : v.toNat < 0x20 ∨ 0x25 < v.toNat) (s : State) :
    trapDispatch v s = .fault (.unmappedTrap v s.console) := by
  have hne : ∀ u : BitVec 8, 0x20 ≤ u.toNat → u.toNat ≤ 0x25 → v ≠ u := by
    rintro u hlo hhi rfl
    omega
  rw [trapDispatch, if_neg (hne 0x20 (by decide) (by decide)), if_neg (hne 0x21 (by decide) (by decide)),
    if_neg (hne 0x22 (by decide) (by decide)), if_neg (hne 0x23 (by decide) (by decide)),
    if_neg (hne 0x24 (by decide) (by decide)), if_neg (hne 0x25 (by decide) (by decide)), raiseAbort]

/-- Settles O40: no vector of the table matches, so the dispatch falls through to the abort. -/
theorem unmappedVectorAborts : Obligations.UnmappedVectorAborts := by
  unfold Obligations.UnmappedVectorAborts
  intro v s h
  rw [exec_trap_linked, trapDispatch_unmapped h, State.console, linked_input, linked_output]

/-! ### GETC, IN and HALT -/

/-- A received byte goes to R0, and to the flags if the parameter says so. -/
theorem State.receive_eq (s : State) (b : Byte) :
    s.receive b = { s with
      regs := s.regs.set 0 (b.setWidth 16)
      cond := if Config.trapInputSetsFlags = true then flagsOf (b.setWidth 16) else s.cond } := by
  rw [State.receive, State.inputFlags, State.reg_setReg_self]
  rfl

/-- GETC takes the next byte (R112). -/
theorem trapGetc_cons {s : State} {b : Byte} {bs : List Byte} (h : s.input = b :: bs) :
    trapGetc s = .next ({ s with input := bs }.receive b) := by
  simp only [trapGetc, State.kbGet, State.takeInput, h, trapReturn]

/-- GETC with no byte waits forever (U11). -/
theorem trapGetc_nil {s : State} (h : s.input = []) : trapGetc s = .fault (.inputNeverArrives ⟨[], s.output⟩) := by
  simp only [trapGetc, State.kbGet, State.takeInput, h, waitForever, State.console]

/-- IN is GETC after the prompt, with the byte echoed (R115). -/
theorem trapIn_cons {s : State} {b : Byte} {bs : List Byte} (h : s.input = b :: bs) :
    trapIn s = .next ({ s with input := bs, output := s.output ++ Config.inPrompt ++ [b] }.receive b) := by
  simp only [trapIn, State.kbGet, State.takeInput, State.out, h, trapReturn]

/-- IN with no byte waits forever, the prompt written (U11). -/
theorem trapIn_nil {s : State} (h : s.input = []) :
    trapIn s = .fault (.inputNeverArrives ⟨[], s.output ++ Config.inPrompt⟩) := by
  simp only [trapIn, State.kbGet, State.takeInput, State.out, h, waitForever, State.console]

/-- Settles O32: GETC sees the input that TRAP entry leaves, which is the input before. -/
theorem getcCompletesWithNextByte : Obligations.GetcCompletesWithNextByte := by
  unfold Obligations.GetcCompletesWithNextByte
  intro s
  rw [exec_trap_linked, trapDispatch_getc]
  refine ⟨fun b bs h => ?_, fun h => ?_⟩
  · rw [trapGetc_cons ((linked_input s).trans h), State.receive_eq, linked_cond]
  · rw [trapGetc_nil ((linked_input s).trans h), linked_output]

/-- Settles O34: as GETC, with the prompt and the echo. -/
theorem inPromptsEchoesAndStores : Obligations.InPromptsEchoesAndStores := by
  unfold Obligations.InPromptsEchoesAndStores
  intro s
  rw [exec_trap_linked, trapDispatch_in]
  refine ⟨fun b bs h => ?_, fun h => ?_⟩
  · rw [trapIn_cons ((linked_input s).trans h), State.receive_eq, linked_cond, linked_output]
  · rw [trapIn_nil ((linked_input s).trans h), linked_output]

/-- Settles O35: the notice is appended to the output TRAP entry leaves. -/
theorem haltWritesNoticeAndHalts : Obligations.HaltWritesNoticeAndHalts := by
  unfold Obligations.HaltWritesNoticeAndHalts
  intro s
  rw [exec_trap_linked, trapDispatch_halt, State.out, linked_output]
  rfl

end Sys2Proof.Machine
end

section
/-! SUPPORT. What PUTS and PUTSP write, the loop of the rule they run, and when they are stuck (family other:
43_trap.md). -/

namespace Sys2Proof.Machine

open Sys2Proof.Claims

/-! ### The two routines -/

theorem putsBytes_eq : putsBytes = fun c => [lowByte c] := by
  funext c
  rw [putsBytes, lowByte_eq_field]

theorem putspBytes_eq : putspBytes = packedBytes := by
  funext c
  rw [putspBytes, packedBytes, lowByte_eq_field, highByte_eq_field]

theorem exec_puts (s : State) : exec (.trap 0x22) s = trapString (fun c => [lowByte c]) (linked s) := by
  rw [exec_trap_linked, trapDispatch_puts, putsBytes_eq]

theorem exec_putsp (s : State) : exec (.trap 0x24) s = trapString packedBytes (linked s) := by
  rw [exec_trap_linked, trapDispatch_putsp, putspBytes_eq]

/-- Where a walk starts: TRAP entry does not write R0. -/
theorem linked_reg_zero (s : State) : (linked s).reg 0 = s.reg 0 := linked_reg_ne s (by decide)

/-- A string routine answers the end of its walk, or is stuck when the walk has none. -/
theorem trapString_cases (bytes : Word → List Byte) (s : State) :
    (∃ t, stringWalk bytes (stringFuel s) (s.reg 0) s = some t ∧ trapString bytes s = .next t) ∨
    (stringWalk bytes (stringFuel s) (s.reg 0) s = none ∧ trapString bytes s = .fault .stringNeverEnds) := by
  rw [trapString]
  split
  next t ht => exact .inl ⟨t, ht, rfl⟩
  next hnone => exact .inr ⟨hnone, rfl⟩

/-- A string routine completes exactly when its walk ends, within whatever number of words. -/
theorem trapString_eq_next_iff (bytes : Word → List Byte) (s t : State) :
    trapString bytes s = .next t ↔ ∃ n, stringWalk bytes n (s.reg 0) s = some t := by
  rw [← stringWalk_stringFuel]
  obtain ⟨u, hwalk, hu⟩ | ⟨hwalk, hstuck⟩ := trapString_cases bytes s
  · rw [hwalk, hu, Option.some.injEq, Host.Outcome.next.injEq]
  · simp [hwalk, hstuck]

/-! ### A string that no read polls -/

/-- A word that is not a polled KBSR is read as it is stored. -/
theorem State.stringRead_plain (s : State) {a : Word} (h : Config.trapStringReadPolls = false ∨ a ≠ kbsrAddr) :
    s.stringRead a = (s.mem.read a, s) := by
  rw [State.stringRead_eq]
  rcases h with hpolls | ha
  · rw [if_neg (by simp [hpolls])]
  · rw [State.memRead_plain s ha, ite_self]

/-- A walk to the zero word `n` words on writes the bytes of the words before it and changes nothing else. -/
theorem stringWalk_to_zero (bytes : Word → List Byte) (n : Nat) (a : Word) (s : State)
    (hnz : ∀ k, k < n → s.mem.read (a + BitVec.ofNat 16 k) ≠ 0) (hz : s.mem.read (a + BitVec.ofNat 16 n) = 0)
    (hp : Config.trapStringReadPolls = false ∨ ∀ k, k ≤ n → a + BitVec.ofNat 16 k ≠ kbsrAddr) :
    stringWalk bytes (n + 1) a s = some { s with
      output := s.output ++ (List.range n).flatMap (fun k => bytes (s.mem.read (a + BitVec.ofNat 16 k))) } := by
  induction n generalizing a s with
  | zero =>
    have h0 : s.mem.read a = 0 := by simpa using hz
    have hread := s.stringRead_plain (a := a) (hp.imp id fun h => by simpa using h 0 le_rfl)
    rw [stringWalk, hread, if_pos h0]
    simp
  | succ n ih =>
    have h0 : s.mem.read a ≠ 0 := by simpa using hnz 0 (Nat.succ_pos n)
    have hread := s.stringRead_plain (a := a) (hp.imp id fun h => by simpa using h 0 (Nat.zero_le _))
    have hwalk := ih (a + 1) (s.out (bytes (s.mem.read a)))
      (fun k hk => by rw [next_offset]; exact hnz (k + 1) (by omega)) (by rw [next_offset]; exact hz)
      (hp.imp id fun h k hk => by rw [next_offset]; exact h (k + 1) (by omega))
    rw [stringWalk, hread, if_neg h0, hwalk]
    have hzero : a + BitVec.ofNat 16 0 = a := BitVec.add_zero a
    simp only [List.range_succ_eq_map, List.flatMap_cons, List.flatMap_map, next_offset, hzero, State.out,
      List.append_assoc]

/-- After TRAP entry, a string routine writes the bytes of the words up to the first zero word; TRAP entry writes
neither memory nor R0. -/
theorem trapString_linked_to_zero (bytes : Word → List Byte) (s : State) (n : Nat)
    (hnz : ∀ k, k < n → s.mem.read (s.reg 0 + BitVec.ofNat 16 k) ≠ 0)
    (hz : s.mem.read (s.reg 0 + BitVec.ofNat 16 n) = 0)
    (hp : Config.trapStringReadPolls = false ∨ ∀ k, k ≤ n → s.reg 0 + BitVec.ofNat 16 k ≠ 0xFE00) :
    trapString bytes (linked s) = .next { linked s with
      output := s.output ++ (List.range n).flatMap (fun k => bytes (s.mem.read (s.reg 0 + BitVec.ofNat 16 k))) } := by
  rw [← linked_mem s, ← linked_reg_zero s] at hnz hz ⊢
  rw [← linked_reg_zero s] at hp
  rw [← linked_output s]
  exact (trapString_eq_next_iff bytes _ _).mpr ⟨n + 1, stringWalk_to_zero bytes n _ _ hnz hz hp⟩

/-- Settles O36: `trapString_linked_to_zero`, with one byte for each word. -/
theorem putsWritesStringUpToZeroWord : Obligations.PutsWritesStringUpToZeroWord := by
  unfold Obligations.PutsWritesStringUpToZeroWord
  intro s n hnz hz hp
  rw [exec_puts, trapString_linked_to_zero _ s n hnz hz hp, List.map_eq_flatMap]

/-- Settles O37: `trapString_linked_to_zero`, with the packed bytes of each word. -/
theorem putspWritesPackedStringUpToZeroWord : Obligations.PutspWritesPackedStringUpToZeroWord := by
  unfold Obligations.PutspWritesPackedStringUpToZeroWord
  intro s n hnz hz hp
  rw [exec_putsp, trapString_linked_to_zero _ s n hnz hz hp]

/-! ### The loop of the rule -/

theorem stringWord_eq_stringRead (s : State) (a : Word) : stringWord s a = s.stringRead a :=
  (s.stringRead_eq a).symm

/-- The loop of R114 and R116 ends in a state exactly when a bounded walk does. -/
theorem stringLoop_iff_stringWalk (bytes : Word → List Byte) (a : Word) (s t : State) :
    StringLoop bytes a s t ↔ ∃ n, stringWalk bytes n a s = some t := by
  constructor
  · intro h
    induction h with
    | stop a s h0 =>
      rw [stringWord_eq_stringRead] at h0 ⊢
      exact ⟨1, by rw [stringWalk, if_pos h0]⟩
    | go a s t h0 _ ih =>
      obtain ⟨n, hn⟩ := ih
      rw [stringWord_eq_stringRead] at h0 hn
      exact ⟨n + 1, by rw [stringWalk, if_neg h0]; exact hn⟩
  · rintro ⟨n, hn⟩
    induction n generalizing a s with
    | zero => cases hn
    | succ n ih =>
      rw [stringWalk, ← stringWord_eq_stringRead] at hn
      split at hn
      next h0 =>
        cases hn
        exact .stop a s h0
      next h0 => exact .go a s t h0 (ih _ _ hn)

/-- Settles O38: a routine completes exactly when its walk ends (`trapString_eq_next_iff`), and so does the loop. -/
theorem stringRoutinesRunTheLoop : Obligations.StringRoutinesRunTheLoop := by
  unfold Obligations.StringRoutinesRunTheLoop
  intro s t
  constructor
  · rw [exec_puts, trapString_eq_next_iff, stringLoop_iff_stringWalk, linked_reg_zero]
  · rw [exec_putsp, trapString_eq_next_iff, stringLoop_iff_stringWalk, linked_reg_zero]

/-! ### When a routine is stuck -/

/-- No zero word in memory, and no string read polls: the walk never ends (U12). -/
theorem trapString_stuck (bytes : Word → List Byte) {s : State}
    (h : Config.trapStringReadPolls = false ∧ ∀ a : Word, s.mem.read a ≠ 0) :
    trapString bytes s = .fault .stringNeverEnds := by
  obtain ⟨hpolls, hnz⟩ := h
  obtain ⟨t, hwalk, -⟩ | ⟨-, hstuck⟩ := trapString_cases bytes s
  · rw [stringWalk_never bytes hpolls s hnz] at hwalk
    cases hwalk
  · exact hstuck

/-- Otherwise the routine completes, within the frame of a walk. -/
theorem trapString_completes (bytes : Word → List Byte) {s : State}
    (h : ¬ (Config.trapStringReadPolls = false ∧ ∀ a : Word, s.mem.read a ≠ 0)) :
    ∃ t, trapString bytes s = .next t ∧ WalkFrame s t := by
  obtain ⟨t, ht⟩ := stringWalk_ends bytes s (s.reg 0) h
  exact ⟨t, (trapString_eq_next_iff bytes s t).mpr ⟨_, ht⟩, stringWalk_frame bytes _ _ s t ht⟩

/-- PUTS and PUTSP are a string routine after TRAP entry. -/
theorem exec_stringTrap {v : BitVec 8} (hv : v = 0x22 ∨ v = 0x24) (s : State) :
    ∃ bytes, exec (.trap v) s = trapString bytes (linked s) := by
  rcases hv with rfl | rfl
  · exact ⟨_, exec_puts s⟩
  · exact ⟨_, exec_putsp s⟩

/-- Settles O39: `trapString_stuck` and `trapString_completes`, whose conditions exclude each other. -/
theorem stringRoutineIsStuckExactlyWithoutZeroWord : Obligations.StringRoutineIsStuckExactlyWithoutZeroWord := by
  unfold Obligations.StringRoutineIsStuckExactlyWithoutZeroWord
  intro v s hv
  obtain ⟨bytes, hexec⟩ := exec_stringTrap hv s
  rw [hexec, ← linked_mem]
  by_cases h : Config.trapStringReadPolls = false ∧ ∀ a : Word, (linked s).mem.read a ≠ 0
  · exact .inl ⟨h, trapString_stuck bytes h⟩
  · obtain ⟨t, ht, hframe⟩ := trapString_completes bytes h
    exact .inr ⟨h, t, ht, hframe.regs, hframe.pc.trans (linked_pc s), hframe.cond.trans (linked_cond s),
      hframe.status.trans (linked_status s), linked_output s ▸ hframe.output⟩

end Sys2Proof.Machine
end

section
/-! SUPPORT. What an instruction that completes can have done, said once (`exec_effect`), and the statements about what
it leaves unchanged (family other: 10_state.md, 20_memory.md). -/

namespace Sys2Proof.Machine

open Sys2Proof.Claims

/-! ### The reads of an instruction -/

/-- The state that reads at these addresses leave, in their order. -/
def State.afterReads (s : State) : List Word → State
  | [] => s
  | a :: as => (s.memRead a).2.afterReads as

theorem WalkFrame.memRead (s : State) (a : Word) : WalkFrame s (s.memRead a).2 :=
  ⟨s.memRead_regs a, s.memRead_pc a, s.memRead_cond a, s.memRead_status a, by rw [s.memRead_output],
    s.memRead_input_suffix a, fun hw => State.memRead_wf hw a, fun _ h1 h2 => s.memRead_other_cells a h1 h2⟩

/-- Reads leave what one read leaves. -/
theorem WalkFrame.afterReads (s : State) (as : List Word) : WalkFrame s (s.afterReads as) := by
  induction as generalizing s with
  | nil => exact WalkFrame.rfl s
  | cons a as ih => exact (WalkFrame.memRead s a).trans (ih _)

@[simp] theorem State.afterReads_output (s : State) (as : List Word) : (s.afterReads as).output = s.output := by
  induction as generalizing s with
  | nil => rfl
  | cons a as ih => rw [State.afterReads, ih, State.memRead_output]

/-- Reads away from KBSR leave the state as it was (R49). -/
theorem State.afterReads_plain {s : State} {as : List Word} (h : 0xFE00 ∉ as) : s.afterReads as = s := by
  induction as with
  | nil => rfl
  | cons a as ih =>
    obtain ⟨ha, has⟩ := List.ne_and_not_mem_of_not_mem_cons h
    rw [State.afterReads, State.memRead_plain s (Ne.symm ha), ih has]

/-- Reads change KBSR and KBDR alone, and those only when one of them is a read of KBSR. -/
theorem State.read_afterReads (s : State) (as : List Word) (a : Word) :
    (s.afterReads as).mem.read a = s.mem.read a ∨ ((a = 0xFE00 ∨ a = 0xFE02) ∧ 0xFE00 ∈ as) := by
  by_cases has : 0xFE00 ∈ as
  · by_cases ha : a = 0xFE00 ∨ a = 0xFE02
    · exact .inr ⟨ha, has⟩
    · exact .inl ((WalkFrame.afterReads s as).cells a (fun h => ha (.inl h)) fun h => ha (.inr h))
  · rw [State.afterReads_plain has]
    exact .inl rfl

/-! ### The effect of a TRAP -/

/-- What a TRAP routine that completes can have done to the state TRAP entry left. -/
inductive TrapEffect (v : BitVec 8) (s : State) : State → Prop
  /-- GETC and IN -/
  | receive (b : Byte) (bs o : List Byte) : v = 0x20 ∨ v = 0x23 → s.input = b :: bs → s.output <+: o →
      TrapEffect v s ({ s with input := bs, output := o }.receive b)
  /-- OUT -/
  | out (bs : List Byte) : v = 0x21 → TrapEffect v s (s.out bs)
  /-- PUTS and PUTSP -/
  | string (t : State) : v = 0x22 ∨ v = 0x24 → WalkFrame s t → (Config.trapStringReadPolls = false → t.mem = s.mem) →
      TrapEffect v s t
  /-- HALT -/
  | halt (bs : List Byte) : v = 0x25 → TrapEffect v s (s.out bs).halt

/-- A walk whose reads do not poll changes no memory. -/
theorem stringWalk_mem (bytes : Word → List Byte) (hp : Config.trapStringReadPolls = false) {n : Nat} {a : Word}
    {s t : State} (h : stringWalk bytes n a s = some t) : t.mem = s.mem := by
  induction n generalizing a s with
  | zero => cases h
  | succ n ih =>
    rw [stringWalk, s.stringRead_plain (.inl hp)] at h
    split at h
    · cases h
      rfl
    · exact (ih h).trans rfl

theorem trapEffect_string {v : BitVec 8} (hv : v = 0x22 ∨ v = 0x24) (bytes : Word → List Byte) {s t : State}
    (h : trapString bytes s = .next t) : TrapEffect v s t := by
  obtain ⟨n, hn⟩ := (trapString_eq_next_iff bytes s t).mp h
  exact .string t hv (stringWalk_frame bytes n _ s t hn) fun hp => stringWalk_mem bytes hp hn

theorem trapDispatch_effect {v : BitVec 8} {s t : State} (h : trapDispatch v s = .next t) : TrapEffect v s t := by
  rcases trapVector_cases v with rfl | rfl | rfl | rfl | rfl | rfl | hv
  · rw [trapDispatch_getc] at h
    cases hi : s.input with
    | nil =>
      rw [trapGetc_nil hi] at h
      cases h
    | cons b bs =>
      rw [trapGetc_cons hi] at h
      cases h
      exact .receive b bs s.output (.inl rfl) hi (List.prefix_refl _)
  · cases h
    exact .out _ rfl
  · exact trapEffect_string (.inl rfl) putsBytes (trapDispatch_puts s ▸ h)
  · rw [trapDispatch_in] at h
    cases hi : s.input with
    | nil =>
      rw [trapIn_nil hi] at h
      cases h
    | cons b bs =>
      rw [trapIn_cons hi] at h
      cases h
      exact .receive b bs _ (.inr rfl) hi (List.append_assoc .. ▸ List.prefix_append _ _)
  · exact trapEffect_string (.inr rfl) putspBytes (trapDispatch_putsp s ▸ h)
  · cases h
    exact .halt _ rfl
  · rw [trapDispatch_unmapped hv] at h
    cases h

/-! ### The effect of an instruction -/

/-- What an instruction that completes can have done to the state. -/
inductive Effect (i : Instr) (s : State) : State → Prop
  /-- a result and its flags, after the instruction's reads -/
  | result (dr : Reg) (v : Word) : flagDest i = some dr → Effect i s (withResult (s.afterReads (readAddrs s i)) dr v)
  /-- a store, after the instruction's reads -/
  | store (sr : Reg) (ea : Word) : storeOf s i = some (sr, ea) →
      Effect i s ((s.afterReads (readAddrs s i)).memWrite ea (s.reg sr))
  /-- BR and JMP -/
  | jump (pc : Word) : (∃ n z p off, i = .br n z p off) ∨ (∃ base, i = .jmp base) → Effect i s (s.setPc pc)
  /-- JSR and JSRR -/
  | call (pc : Word) : (∃ off, i = .jsr off) ∨ (∃ base, i = .jsrr base) → Effect i s (s.link.setPc pc)
  /-- TRAP -/
  | trap (v : BitVec 8) (t : State) : i = .trap v → TrapEffect v (linked s) t → Effect i s t

theorem Effect.of_next {i : Instr} {s t u : State} (hu : exec i s = .next u) (heffect : Effect i s u)
    (h : exec i s = .next t) : Effect i s t := by
  rw [hu] at h
  cases h
  exact heffect

/-- Every instruction that completes did what `Effect` says, by its own equation. -/
theorem exec_effect {i : Instr} {s t : State} (h : exec i s = .next t) : Effect i s t := by
  cases i with
  | br n z p off => exact .of_next (exec_br n z p off s) (.jump _ (.inl ⟨n, z, p, off, rfl⟩)) h
  | addReg dr sr1 sr2 => exact .of_next (addCompletesWithSum dr sr1 sr2 0 s).1 (.result dr _ rfl) h
  | addImm dr sr1 imm => exact .of_next (addCompletesWithSum dr sr1 0 imm s).2 (.result dr _ rfl) h
  | ld dr off => exact .of_next (loadFrom_eq dr _ s) (.result dr _ rfl) h
  | st sr off => exact .of_next (exec_st sr off s) (.store sr _ rfl) h
  | jsr off => exact .of_next (exec_jsr off s) (.call _ (.inl ⟨off, rfl⟩)) h
  | jsrr base => exact .of_next (exec_jsrr base s) (.call _ (.inr ⟨base, rfl⟩)) h
  | andReg dr sr1 sr2 => exact .of_next (andAndNotCompleteBitwise dr sr1 sr2 0 s).1 (.result dr _ rfl) h
  | andImm dr sr1 imm => exact .of_next (andAndNotCompleteBitwise dr sr1 0 imm s).2.1 (.result dr _ rfl) h
  | ldr dr base off => exact .of_next (loadFrom_eq dr _ s) (.result dr _ rfl) h
  | str sr base off => exact .of_next (exec_str sr base off s) (.store sr _ rfl) h
  | rti => cases h
  | not dr sr => exact .of_next (exec_not dr sr s) (.result dr _ rfl) h
  | ldi dr off => exact .of_next (loadFrom_eq dr _ _) (.result dr _ rfl) h
  | sti sr off => exact .of_next (exec_sti sr off s) (.store sr _ rfl) h
  | jmp base => exact .of_next (jmpCompletesAtRegister base s) (.jump _ (.inr ⟨base, rfl⟩)) h
  | res => cases h
  | lea dr off => exact .of_next (leaCompletesWithAddress dr off s) (.result dr _ rfl) h
  | trap v => exact .trap v t rfl (trapDispatch_effect (exec_trap_linked v s ▸ h))

/-! ### Flags -/

/-- No flags are NONE (R26, R27). -/
theorem flagsOf_ne_none (v : Word) : flagsOf v ≠ .none := by
  unfold flagsOf
  split
  · decide
  · split <;> decide

/-- A store updates no flags and is no TRAP. -/
theorem flagDest_of_storeOf {s : State} {i : Instr} {sr : Reg} {ea : Word} (h : storeOf s i = some (sr, ea)) :
    flagDest i = none ∧ ∀ v, i ≠ .trap v := by
  cases i <;> simp_all [storeOf, flagDest]

/-- The flags an instruction leaves: those of its destination register, those of GETC and IN, or the old ones (R28). -/
theorem Effect.cond {i : Instr} {s t : State} (h : Effect i s t) :
    (∃ dr, flagDest i = some dr ∧ t.cond = flagsOf (t.reg dr)) ∨
    (flagDest i = none ∧ (i = .trap 0x20 ∨ i = .trap 0x23) ∧
      t.cond = if Config.trapInputSetsFlags = true then flagsOf (t.reg 0) else s.cond) ∨
    (flagDest i = none ∧ i ≠ .trap 0x20 ∧ i ≠ .trap 0x23 ∧ t.cond = s.cond) := by
  cases h with
  | result dr v hdest =>
    have hreg : (withResult (s.afterReads (readAddrs s i)) dr v).reg dr = v := State.reg_setReg_self _ dr v
    exact .inl ⟨dr, hdest, by rw [hreg]; rfl⟩
  | store sr ea hstore =>
    obtain ⟨hdest, htrap⟩ := flagDest_of_storeOf hstore
    exact .inr (.inr ⟨hdest, htrap _, htrap _, (WalkFrame.afterReads s _).cond⟩)
  | jump pc hi =>
    rcases hi with ⟨n, z, p, off, rfl⟩ | ⟨base, rfl⟩
    · exact .inr (.inr ⟨rfl, by simp, by simp, rfl⟩)
    · exact .inr (.inr ⟨rfl, by simp, by simp, rfl⟩)
  | call pc hi =>
    rcases hi with ⟨off, rfl⟩ | ⟨base, rfl⟩
    · exact .inr (.inr ⟨rfl, by simp, by simp, rfl⟩)
    · exact .inr (.inr ⟨rfl, by simp, by simp, rfl⟩)
  | trap v t hi htrap =>
    subst hi
    cases htrap with
    | receive b bs o hv hinput hout =>
      refine .inr (.inl ⟨rfl, by simpa using hv, ?_⟩)
      have hreg : (State.receive { linked s with input := bs, output := o } b).reg 0 = b.setWidth 16 :=
        State.reg_setReg_self _ 0 _
      rw [hreg, State.receive_eq, linked_cond]
    | out bs hv => exact .inr (.inr ⟨rfl, by simp [hv], by simp [hv], linked_cond s⟩)
    | string _ hv hframe _ =>
      have hcond : t.cond = s.cond := hframe.cond.trans (linked_cond s)
      rcases hv with rfl | rfl
      · exact .inr (.inr ⟨rfl, by decide, by decide, hcond⟩)
      · exact .inr (.inr ⟨rfl, by decide, by decide, hcond⟩)
    | halt bs hv => exact .inr (.inr ⟨rfl, by simp [hv], by simp [hv], linked_cond s⟩)

/-- Settles O9: by the three kinds of `Effect.cond`. -/
theorem flagUpdatersLeaveSignOrZero : Obligations.FlagUpdatersLeaveSignOrZero := by
  unfold Obligations.FlagUpdatersLeaveSignOrZero
  intro i s t h
  obtain ⟨dr, hdest, hcond⟩ | ⟨hdest, hi, hcond⟩ | ⟨hdest, hgetc, hin, hcond⟩ := (exec_effect h).cond
  · refine ⟨fun dr' hdest' => ?_, fun hi => ?_, fun hnone => absurd (hcond.symm.trans hnone) (flagsOf_ne_none _)⟩
    · cases hdest.symm.trans hdest'
      exact hcond
    · rcases hi with rfl | rfl <;> cases hdest
  · refine ⟨fun dr' hdest' => (by cases hdest.symm.trans hdest'), fun _ => hcond, fun hnone => ?_⟩
    rw [hcond] at hnone
    split at hnone
    · exact absurd hnone (flagsOf_ne_none _)
    · exact hnone
  · exact ⟨fun dr' hdest' => (by cases hdest.symm.trans hdest'), fun hi => hi.elim (absurd · hgetc) (absurd · hin),
      fun hnone => hcond.symm.trans hnone⟩

/-- Settles O10: the other two kinds of `Effect.cond` are excluded by the hypotheses. -/
theorem onlyFlagUpdatersWriteCond : Obligations.OnlyFlagUpdatersWriteCond := by
  unfold Obligations.OnlyFlagUpdatersWriteCond
  intro i s t h hdest hgetc hin
  obtain ⟨dr, hdest', -⟩ | ⟨-, hi, -⟩ | ⟨-, -, -, hcond⟩ := (exec_effect h).cond
  · cases hdest.symm.trans hdest'
  · exact hi.elim (absurd · hgetc) (absurd · hin)
  · exact hcond

/-! ### Registers and pc -/

/-- A walk, a read or another operation that keeps the registers keeps each of them. -/
theorem WalkFrame.reg {s t : State} (h : WalkFrame s t) (r : Reg) : t.reg r = s.reg r := by
  rw [State.reg, h.regs, State.reg]

/-- TRAP entry changes R7 alone, and only if `P_TRAP_LINK_R7` (R127). -/
theorem reg_linked_changed {s : State} {r : Reg} (h : (linked s).reg r ≠ s.reg r) :
    r = 7 ∧ Config.trapLinkR7 = true := by
  refine ⟨?_, ?_⟩
  · by_contra hr
    exact h (linked_reg_ne s hr)
  · by_contra hlink
    rw [linked, if_neg hlink] at h
    exact h rfl

/-- Settles O13: by the effect; a register other than the one the effect writes reads as before. -/
theorem onlyNamedRegistersAreWritten : Obligations.OnlyNamedRegistersAreWritten := by
  unfold Obligations.OnlyNamedRegistersAreWritten
  intro i s t r h hne
  cases exec_effect h with
  | result dr v hdest =>
    refine .inl (hdest.trans (congrArg some ?_))
    by_contra hr
    refine hne ?_
    calc (withResult (s.afterReads (readAddrs s i)) dr v).reg r
        = (s.afterReads (readAddrs s i)).reg r := State.reg_setReg_ne _ v (Ne.symm hr)
      _ = s.reg r := (WalkFrame.afterReads s _).reg r
  | store sr ea hstore => exact absurd ((WalkFrame.afterReads s _).reg r) hne
  | jump pc hi => exact absurd rfl hne
  | call pc hi =>
    refine .inr (.inl ⟨?_, hi⟩)
    by_contra hr
    exact hne (State.reg_setReg_ne s _ hr)
  | trap v _ hi htrap =>
    have hlinked : ∀ u : State, u.reg r ≠ s.reg r → u.reg r = (linked s).reg r →
        r = 7 ∧ Config.trapLinkR7 = true ∧ ∃ v, i = .trap v := fun u hu heq =>
      ⟨(reg_linked_changed (heq ▸ hu)).1, (reg_linked_changed (heq ▸ hu)).2, v, hi⟩
    cases htrap with
    | receive b bs o hv hinput hout =>
      by_cases hr : r = 0
      · exact .inr (.inr (.inl ⟨hr, by simpa [hi] using hv⟩))
      · exact .inr (.inr (.inr (hlinked _ hne (State.reg_setReg_ne _ _ hr))))
    | out bs hv => exact .inr (.inr (.inr (hlinked _ hne rfl)))
    | string _ hv hframe _ => exact .inr (.inr (.inr (hlinked _ hne (hframe.reg r))))
    | halt bs hv => exact .inr (.inr (.inr (hlinked _ hne rfl)))

/-- Settles O14: of the effects, only those of BR, JMP, JSR and JSRR write `pc`. -/
theorem onlyBranchesAndJumpsWritePc : Obligations.OnlyBranchesAndJumpsWritePc := by
  unfold Obligations.OnlyBranchesAndJumpsWritePc
  intro i s t h hbr hjmp hjsr hjsrr
  cases exec_effect h with
  | result dr v hdest => exact (WalkFrame.afterReads s _).pc
  | store sr ea hstore => exact (WalkFrame.afterReads s _).pc
  | jump pc hi =>
    obtain ⟨n, z, p, off, hi⟩ | ⟨base, hi⟩ := hi
    · exact absurd hi (hbr n z p off)
    · exact absurd hi (hjmp base)
  | call pc hi =>
    obtain ⟨off, hi⟩ | ⟨base, hi⟩ := hi
    · exact absurd hi (hjsr off)
    · exact absurd hi (hjsrr base)
  | trap v _ hi htrap =>
    cases htrap with
    | receive b bs o hv hinput hout => exact linked_pc s
    | out bs hv => exact linked_pc s
    | string _ hv hframe _ => exact hframe.pc.trans (linked_pc s)
    | halt bs hv => exact linked_pc s

/-! ### Memory and the console -/

/-- Settles O19: by the effect; reads change the keyboard's cells alone, and so does a string walk, which changes none
when it does not poll. -/
theorem onlyStoresAndPollsChangeMemory : Obligations.OnlyStoresAndPollsChangeMemory := by
  unfold Obligations.OnlyStoresAndPollsChangeMemory
  intro i s t a h hnot
  have hreads := (s.read_afterReads (readAddrs s i) a).imp_right fun ⟨ha, hr⟩ =>
    (⟨ha, .inl hr⟩ : (a = 0xFE00 ∨ a = 0xFE02) ∧
      (0xFE00 ∈ readAddrs s i ∨ (Config.trapStringReadPolls = true ∧ (i = Instr.trap 0x22 ∨ i = Instr.trap 0x24))))
  cases exec_effect h with
  | result dr v hdest => exact hreads
  | store sr ea hstore =>
    rw [State.memWrite_mem, Memory.read_write, if_neg (hnot sr ea hstore)]
    exact hreads
  | jump pc hi => exact .inl rfl
  | call pc hi => exact .inl rfl
  | trap v _ hi htrap =>
    cases htrap with
    | receive b bs o hv hinput hout => exact .inl (congrArg (·.read a) (linked_mem s))
    | out bs hv => exact .inl (congrArg (·.read a) (linked_mem s))
    | halt bs hv => exact .inl (congrArg (·.read a) (linked_mem s))
    | string _ hv hframe hmem =>
      rw [← linked_mem s]
      by_cases hp : Config.trapStringReadPolls = true
      · by_cases ha : a = 0xFE00 ∨ a = 0xFE02
        · exact .inr ⟨ha, .inr ⟨hp, by simpa [hi] using hv⟩⟩
        · exact .inl (hframe.cells a (fun he => ha (.inl he)) fun he => ha (.inr he))
      · rw [hmem (Bool.eq_false_of_not_eq_true hp)]
        exact .inl rfl

/-- Settles O20: by the effect; reads leave output and status, and away from KBSR everything. -/
theorem offTheConsoleNothingIsReadOrWritten : Obligations.OffTheConsoleNothingIsReadOrWritten := by
  unfold Obligations.OffTheConsoleNothingIsReadOrWritten
  intro i s t h htrap
  have hstatus : (s.afterReads (readAddrs s i)).status = s.status := (WalkFrame.afterReads s _).status
  have hplain : 0xFE00 ∉ readAddrs s i → (s.afterReads (readAddrs s i)).input = s.input ∧
      (s.afterReads (readAddrs s i)).polls = s.polls ∧ (s.afterReads (readAddrs s i)).pollCount = s.pollCount :=
    fun hr => by rw [State.afterReads_plain hr]; exact ⟨rfl, rfl, rfl⟩
  cases exec_effect h with
  | result dr v hdest => exact ⟨s.afterReads_output _, hstatus, hplain⟩
  | store sr ea hstore => exact ⟨s.afterReads_output _, hstatus, hplain⟩
  | jump pc hi => exact ⟨rfl, rfl, fun _ => ⟨rfl, rfl, rfl⟩⟩
  | call pc hi => exact ⟨rfl, rfl, fun _ => ⟨rfl, rfl, rfl⟩⟩
  | trap v _ hi _ => exact absurd hi (htrap v)

end Sys2Proof.Machine
end

section
/-! SUPPORT. No operation but BR's test reads the flags: each commutes with replacing them, and so does every
instruction but BR (family other: 10_state.md). -/

namespace Sys2Proof.Machine

open Sys2Proof.Claims

/-- `s` with other flags. -/
def State.withCond (s : State) (c : Cond) : State := { s with cond := c }

/-- The outcome `r'` is `r` up to the flags of a next state. -/
def SameUpToCond (r r' : Result) : Prop :=
  (∀ t : State, r = .next t → ∃ c' : Cond, r' = .next (t.withCond c')) ∧ (∀ f : Fault, r = .fault f → r' = .fault f)

theorem SameUpToCond.next {r r' : Result} {t : State} (c : Cond) (hr : r = .next t) (hr' : r' = .next (t.withCond c)) :
    SameUpToCond r r' := by
  subst hr hr'
  exact ⟨fun u hu => ⟨c, by cases hu; rfl⟩, fun f hf => (by cases hf)⟩

theorem SameUpToCond.fault {r r' : Result} {f : Fault} (hr : r = .fault f) (hr' : r' = .fault f) :
    SameUpToCond r r' := by
  subst hr hr'
  exact ⟨fun u hu => (by cases hu), fun g hg => hg⟩

/-! ### The shared operations -/

theorem State.kbPoll_withCond (s : State) (c : Cond) :
    (s.withCond c).kbPoll = (s.kbPoll.1, s.kbPoll.2.withCond c) := by
  obtain ⟨hbyte, hstate⟩ := pollDeliversTheNextByte s
  obtain ⟨hbyte', hstate'⟩ := pollDeliversTheNextByte (s.withCond c)
  rw [hbyte, hstate]
  exact Prod.ext hbyte' hstate'

theorem State.pollKeyboard_withCond (s : State) (c : Cond) :
    (s.withCond c).pollKeyboard = s.pollKeyboard.withCond c := by
  have hpoll := s.kbPoll_withCond c
  rcases hk : s.kbPoll with ⟨_ | b, t⟩ <;> rw [hk] at hpoll
  · rw [State.pollKeyboard_notReady hk, State.pollKeyboard_notReady hpoll]
    rfl
  · rw [State.pollKeyboard_ready hk, State.pollKeyboard_ready hpoll]
    rfl

theorem State.memRead_withCond (s : State) (c : Cond) (a : Word) :
    (s.withCond c).memRead a = ((s.memRead a).1, (s.memRead a).2.withCond c) := by
  by_cases ha : a = kbsrAddr
  · subst ha
    rw [State.memRead_kbsr, State.memRead_kbsr, State.pollKeyboard_withCond]
    rfl
  · rw [State.memRead_plain _ ha, State.memRead_plain _ ha]
    rfl

theorem State.stringRead_withCond (s : State) (c : Cond) (a : Word) :
    (s.withCond c).stringRead a = ((s.stringRead a).1, (s.stringRead a).2.withCond c) := by
  rw [State.stringRead_eq, State.stringRead_eq, State.memRead_withCond]
  split <;> rfl

theorem linked_withCond (s : State) (c : Cond) : linked (s.withCond c) = (linked s).withCond c := by
  unfold linked
  split <;> rfl

theorem stringWalk_withCond (bytes : Word → List Byte) (n : Nat) (a : Word) (s : State) (c : Cond) :
    stringWalk bytes n a (s.withCond c) = (stringWalk bytes n a s).map (·.withCond c) := by
  induction n generalizing a s with
  | zero => rfl
  | succ n ih =>
    rw [stringWalk, stringWalk, State.stringRead_withCond]
    split
    · rfl
    · exact ih (a + 1) ((s.stringRead a).2.out (bytes (s.stringRead a).1))

/-! ### The TRAP routines -/

theorem trapString_sameUpToCond (bytes : Word → List Byte) (s : State) (c : Cond) :
    SameUpToCond (trapString bytes s) (trapString bytes (s.withCond c)) := by
  have hfuel : stringFuel (s.withCond c) = stringFuel s := rfl
  have hreg : (s.withCond c).reg 0 = s.reg 0 := rfl
  have hother := trapString_cases bytes (s.withCond c)
  rw [hfuel, hreg, stringWalk_withCond] at hother
  obtain ⟨t, hwalk, ht⟩ | ⟨hwalk, hstuck⟩ := trapString_cases bytes s
  · obtain ⟨u, hu, hnext⟩ | ⟨hnone, -⟩ := hother
    · rw [hwalk] at hu
      cases hu
      exact .next c ht hnext
    · rw [hwalk] at hnone
      cases hnone
  · obtain ⟨u, hu, -⟩ | ⟨-, hstuck'⟩ := hother
    · rw [hwalk] at hu
      cases hu
    · exact .fault hstuck hstuck'

theorem trapDispatch_sameUpToCond (v : BitVec 8) (s : State) (c : Cond) :
    SameUpToCond (trapDispatch v s) (trapDispatch v (s.withCond c)) := by
  rcases trapVector_cases v with rfl | rfl | rfl | rfl | rfl | rfl | hv
  · rw [trapDispatch_getc, trapDispatch_getc]
    cases hi : s.input with
    | nil => exact .fault (trapGetc_nil hi) (trapGetc_nil (s := s.withCond c) hi)
    | cons b bs =>
      refine .next (State.receive { s.withCond c with input := bs } b).cond (trapGetc_cons hi) ?_
      exact trapGetc_cons (s := s.withCond c) hi
  · exact .next c rfl rfl
  · rw [trapDispatch_puts, trapDispatch_puts]
    exact trapString_sameUpToCond putsBytes s c
  · rw [trapDispatch_in, trapDispatch_in]
    cases hi : s.input with
    | nil => exact .fault (trapIn_nil hi) (trapIn_nil (s := s.withCond c) hi)
    | cons b bs =>
      refine .next (State.receive { s.withCond c with input := bs } b).cond (trapIn_cons hi) ?_
      exact trapIn_cons (s := s.withCond c) hi
  · rw [trapDispatch_putsp, trapDispatch_putsp]
    exact trapString_sameUpToCond putspBytes s c
  · exact .next c rfl rfl
  · exact .fault (trapDispatch_unmapped hv s) (trapDispatch_unmapped hv (s.withCond c))

/-! ### The instructions -/

/-- A load's result overwrites the flags, so replacing them before leaves the outcome the same. -/
theorem loadFrom_sameUpToCond (dr : Reg) (ea : Word) (s : State) (c : Cond) :
    SameUpToCond (loadFrom dr ea s) (loadFrom dr ea (s.withCond c)) := by
  rw [loadFrom_eq, loadFrom_eq, State.memRead_withCond]
  exact .next _ rfl rfl

/-- Settles O11: by the instruction; a result overwrites the flags, the others but BR pass them on. -/
theorem condIsReadOnlyByBr : Obligations.CondIsReadOnlyByBr := by
  unfold Obligations.CondIsReadOnlyByBr
  intro i s c hbr
  show SameUpToCond (exec i s) (exec i (s.withCond c))
  have hptr := fun off => s.memRead_withCond c (s.pc + off)
  have hpc : (s.withCond c).pc = s.pc := rfl
  cases i with
  | br n z p off => exact absurd rfl (hbr n z p off)
  | addReg | addImm | andReg | andImm | not | lea => exact .next _ rfl rfl
  | ld dr off => exact loadFrom_sameUpToCond dr (s.pc + off) s c
  | ldr dr base off => exact loadFrom_sameUpToCond dr (s.reg base + off) s c
  | ldi dr off =>
    rw [exec_ldi, exec_ldi, hpc, hptr]
    exact loadFrom_sameUpToCond dr _ _ c
  | st | str | jmp | jsr | jsrr => exact .next c rfl rfl
  | sti sr off => exact .next c (exec_sti sr off s) (by rw [exec_sti, hpc, hptr]; rfl)
  | rti | res => exact .fault rfl rfl
  | trap v =>
    rw [exec_trap_linked, exec_trap_linked, linked_withCond]
    exact trapDispatch_sameUpToCond v _ c

end Sys2Proof.Machine
end

section
/-! SUPPORT. The step: what it executes, when it stops the loop and why it faults, and the statements about it (family
other: 20_memory.md, 60_exceptions.md, 70_reset_and_hazards.md). -/

namespace Sys2Proof.Machine

open Sys2Proof.Claims

/-- Settles O43: the fetch away from KBSR gives the stored word, and the encoding of a well-formed instruction decodes to
it. -/
theorem stepRunsTheInstructionAtPc : Obligations.StepRunsTheInstructionAtPc := by
  unfold Obligations.StepRunsTheInstructionAtPc
  intro s i hrun hpc hwf hword
  rw [step_running_plain hrun hpc]
  rcases hword with hdecode | hencode
  · rw [hdecode]
  · rw [hencode, decodeEncodeRoundTrip i hwf]

/-- The word a ready poll gives has opcode 8 (R86). -/
theorem decode_kbsrReady : decode 0x8000 = .rti := by decide

/-- Settles O44: not ready, the poll answers 0x0000, the no-op; ready, 0x8000, RTI, and the byte is consumed. -/
theorem fetchFromKbsrPolls : Obligations.FetchFromKbsrPolls := by
  unfold Obligations.FetchFromKbsrPolls
  intro s hrun hpc
  have hstep := step_running hrun
  rw [hpc] at hstep
  refine ⟨fun t h => ?_, fun b t h => ?_⟩
  · rw [State.memRead_kbsr_notReady h, decode_zero, exec_nop] at hstep
    exact ⟨_, hstep, rfl, fun a => by rw [Memory.read_write]⟩
  · rw [State.memRead_kbsr_ready h, decode_kbsrReady, exec_rti] at hstep
    obtain ⟨ps, n, ⟨c, bs, hinput, hpoll⟩ | hpoll⟩ := s.kbPoll_cases
    · cases h.symm.trans hpoll
      exact ⟨bs, hinput, hstep⟩
    · cases h.symm.trans hpoll

/-- A store completes: it writes one cell, in the state its pointer read leaves. -/
theorem exec_of_storeOf {s : State} {i : Instr} {sr : Reg} {ea : Word} (h : storeOf s i = some (sr, ea)) :
    exec i s = .next ((s.afterReads (readAddrs s i)).memWrite ea (s.reg sr)) := by
  cases i with
  | st sr' off =>
    cases h
    exact exec_st sr off s
  | str sr' base off =>
    cases h
    exact exec_str sr base off s
  | sti sr' off =>
    cases h
    exact exec_sti sr off s
  | _ => cases h

/-- Settles O45: after the store the machine still runs, `pc` is unchanged and the cell there holds the register. -/
theorem storedWordIsExecutedNext : Obligations.StoredWordIsExecutedNext := by
  unfold Obligations.StoredWordIsExecutedNext
  intro i sr s t hrun hpc hstore h
  cases (exec_of_storeOf hstore).symm.trans h
  have hframe := WalkFrame.afterReads s (readAddrs s i)
  have hrun' : ((s.afterReads (readAddrs s i)).memWrite s.pc (s.reg sr)).status = .running := hframe.status.trans hrun
  have hpc' : ((s.afterReads (readAddrs s i)).memWrite s.pc (s.reg sr)).pc = s.pc := hframe.pc
  rw [step_running_plain hrun' (hpc' ▸ hpc), hpc', State.memWrite_mem, Memory.read_write, if_pos rfl]

/-! ### What stops the loop -/

/-- A machine that does not run is left as it is (R146). -/
theorem step_stopped {s : State} (h : s.status ≠ .running) : step s = .next s := by
  rw [step]
  split
  next hrun => exact absurd hrun h
  next => rfl
  next => rfl

/-- An instruction leaves the run status alone, but for HALT (R117). -/
theorem Effect.status {i : Instr} {s t : State} (h : Effect i s t) :
    t.status = s.status ∨ (t.status = .halted ∧ i = .trap 0x25) := by
  cases h with
  | result dr v hdest => exact .inl (WalkFrame.afterReads s _).status
  | store sr ea hstore => exact .inl (WalkFrame.afterReads s _).status
  | jump pc hi => exact .inl rfl
  | call pc hi => exact .inl rfl
  | trap v _ hi htrap =>
    cases htrap with
    | receive b bs o hv hinput hout => exact .inl (linked_status s)
    | out bs hv => exact .inl (linked_status s)
    | string _ hv hframe _ => exact .inl (hframe.status.trans (linked_status s))
    | halt bs hv => exact .inr ⟨rfl, hv ▸ hi⟩

/-- Settles O47: the fetch leaves the status RUNNING, so the instruction must be HALT. -/
theorem onlyHaltStopsTheLoop : Obligations.OnlyHaltStopsTheLoop := by
  unfold Obligations.OnlyHaltStopsTheLoop
  intro s t hrun hstep hstop
  rw [step_running hrun] at hstep
  obtain hsame | hhalt := (exec_effect hstep).status
  · exact absurd (hsame.trans ((s.memRead_status s.pc).trans hrun)) hstop
  · exact hhalt

/-! ### Why a step faults -/

/-- The causes for which an instruction stops the machine, with what is left. -/
inductive StopCause (s : State) : Instr → Fault → Prop
  | rti : StopCause s .rti (.illegalOpcode 8 s.console)
  | res : StopCause s .res (.illegalOpcode 13 s.console)
  | unmapped (v : BitVec 8) : v.toNat < 0x20 ∨ 0x25 < v.toNat → StopCause s (.trap v) (.unmappedTrap v s.console)
  | getc : s.input = [] → StopCause s .getc (.inputNeverArrives ⟨[], s.output⟩)
  | in_ : s.input = [] → StopCause s .in_ (.inputNeverArrives ⟨[], s.output ++ Config.inPrompt⟩)
  | string (v : BitVec 8) : v = 0x22 ∨ v = 0x24 → Config.trapStringReadPolls = false → (∀ a : Word, s.mem.read a ≠ 0) →
      StopCause s (.trap v) .stringNeverEnds

/-- An instruction completes or stops for a cause of the list; none is refused. -/
theorem exec_completes_or_stops (i : Instr) (s : State) :
    (∃ t, exec i s = .next t) ∨ ∃ f, exec i s = .fault f ∧ StopCause s i f := by
  have hstring : ∀ v : BitVec 8, v = 0x22 ∨ v = 0x24 →
      (∃ t, exec (.trap v) s = .next t) ∨ ∃ f, exec (.trap v) s = .fault f ∧ StopCause s (.trap v) f := by
    intro v hv
    obtain ⟨⟨hp, hnz⟩, hstuck⟩ | ⟨-, t, ht, -⟩ := stringRoutineIsStuckExactlyWithoutZeroWord v s hv
    · exact .inr ⟨_, hstuck, .string v hv hp hnz⟩
    · exact .inl ⟨t, ht⟩
  cases i with
  | rti => exact .inr ⟨_, exec_rti s, .rti⟩
  | res => exact .inr ⟨_, exec_res s, .res⟩
  | trap v =>
    rcases trapVector_cases v with rfl | rfl | rfl | rfl | rfl | rfl | hv
    · obtain ⟨hbyte, hnone⟩ := getcCompletesWithNextByte s
      cases hi : s.input with
      | nil => exact .inr ⟨_, hnone hi, .getc hi⟩
      | cons b bs => exact .inl ⟨_, hbyte b bs hi⟩
    · exact .inl ⟨_, outWritesLowByteOfR0 s⟩
    · exact hstring 0x22 (.inl rfl)
    · obtain ⟨hbyte, hnone⟩ := inPromptsEchoesAndStores s
      cases hi : s.input with
      | nil => exact .inr ⟨_, hnone hi, .in_ hi⟩
      | cons b bs => exact .inl ⟨_, hbyte b bs hi⟩
    · exact hstring 0x24 (.inr rfl)
    · exact .inl ⟨_, haltWritesNoticeAndHalts s⟩
    · exact .inr ⟨_, unmappedVectorAborts v s hv, .unmapped v hv⟩
  | _ => exact .inl ⟨_, rfl⟩

/-- Settles O48: a machine that does not run completes its step; one that runs stops for a cause of `StopCause`, in the
state the fetch leaves, whose output is that before. -/
theorem stepStopsOnlyForListedCauses : Obligations.StepStopsOnlyForListedCauses := by
  unfold Obligations.StepStopsOnlyForListedCauses
  intro s
  by_cases hrun : s.status = .running
  · rw [step_running hrun, ← s.memRead_output s.pc]
    generalize decode (s.memRead s.pc).1 = i
    obtain ⟨t, ht⟩ | ⟨g, hg, hcause⟩ :=
      exec_completes_or_stops i { (s.memRead s.pc).2 with pc := s.pc + 1 }
    · rw [ht]
      exact ⟨fun r hr => (by cases hr), fun f hf => (by cases hf)⟩
    · rw [hg]
      refine ⟨fun r hr => (by cases hr), fun f hf => ⟨hrun, ?_⟩⟩
      cases hf
      cases hcause with
      | rti => exact .inl ⟨rfl, rfl⟩
      | res => exact .inr (.inl ⟨rfl, rfl⟩)
      | unmapped v hv => exact .inr (.inr (.inl ⟨v, rfl, rfl, hv⟩))
      | getc hi => exact .inr (.inr (.inr (.inl ⟨rfl, hi, rfl⟩)))
      | in_ hi => exact .inr (.inr (.inr (.inr (.inl ⟨rfl, hi, rfl⟩))))
      | string v hv hp hnz => exact .inr (.inr (.inr (.inr (.inr ⟨rfl, hp, hnz, by simpa using hv⟩))))
  · rw [step_stopped hrun]
    exact ⟨fun r hr => (by cases hr), fun f hf => (by cases hf)⟩

end Sys2Proof.Machine
end

section
/-! SUPPORT. What every step and every run keeps, and canonical memories (family other: 10_state.md, 20_memory.md,
60_exceptions.md, 70_reset_and_hazards.md). -/

namespace Sys2Proof.Machine

open Sys2Proof.Claims

/-! ### The frame of a step -/

/-- What any number of steps keeps: the output only grows, the input is consumed from its front, the flags do not become
NONE, and memory stays canonical. -/
structure RunFrame (s t : State) : Prop where
  output : s.output <+: t.output
  input : t.input <:+ s.input
  cond : t.cond = .none → s.cond = .none
  wf : s.mem.wf → t.mem.wf

theorem RunFrame.rfl (s : State) : RunFrame s s := ⟨List.prefix_refl _, List.suffix_refl _, id, id⟩

theorem RunFrame.trans {s t u : State} (h : RunFrame s t) (k : RunFrame t u) : RunFrame s u :=
  ⟨h.output.trans k.output, k.input.trans h.input, h.cond ∘ k.cond, k.wf ∘ h.wf⟩

theorem WalkFrame.runFrame {s t : State} (h : WalkFrame s t) : RunFrame s t :=
  ⟨h.output, h.input, h.cond.symm.trans, h.wf⟩

theorem linked_runFrame (s : State) : RunFrame s (linked s) :=
  ⟨by rw [linked_output], by rw [linked_input], by rw [linked_cond]; exact id, by rw [linked_mem]; exact id⟩

theorem TrapEffect.runFrame {v : BitVec 8} {s t : State} (h : TrapEffect v s t) : RunFrame s t := by
  cases h with
  | receive b bs o hv hinput hout =>
    rw [State.receive_eq]
    refine ⟨hout, hinput ▸ List.suffix_cons b bs, fun hnone => ?_, id⟩
    by_cases hflags : Config.trapInputSetsFlags = true
    · exact absurd ((if_pos hflags).symm.trans hnone) (flagsOf_ne_none _)
    · exact (if_neg hflags).symm.trans hnone
  | out bs hv => exact ⟨List.prefix_append _ _, List.suffix_refl _, id, id⟩
  | string _ hv hframe _ => exact hframe.runFrame
  | halt bs hv => exact ⟨List.prefix_append _ _, List.suffix_refl _, id, id⟩

theorem Effect.runFrame {i : Instr} {s t : State} (h : Effect i s t) : RunFrame s t := by
  have hreads := (WalkFrame.afterReads s (readAddrs s i)).runFrame
  cases h with
  | result dr v hdest => exact ⟨hreads.output, hreads.input, fun hnone => absurd hnone (flagsOf_ne_none v), hreads.wf⟩
  | store sr ea hstore =>
    exact ⟨hreads.output, hreads.input, hreads.cond, fun hwf => Memory.wf_write (hreads.wf hwf) ea (s.reg sr)⟩
  | jump pc hi => exact ⟨List.prefix_refl _, List.suffix_refl _, id, id⟩
  | call pc hi => exact ⟨List.prefix_refl _, List.suffix_refl _, id, id⟩
  | trap v _ hi htrap => exact (linked_runFrame s).trans htrap.runFrame

/-- A step that answers a next state keeps the frame: the fetch does, and so does the instruction. -/
theorem step_runFrame {s t : State} (h : step s = .next t) : RunFrame s t := by
  by_cases hrun : s.status = .running
  · rw [step_running hrun] at h
    obtain ⟨houtput, hinput, hcond, hwf⟩ := (WalkFrame.memRead s s.pc).runFrame
    have hfetch : RunFrame s { (s.memRead s.pc).2 with pc := s.pc + 1 } := ⟨houtput, hinput, hcond, hwf⟩
    exact hfetch.trans (exec_effect h).runFrame
  · rw [step_stopped hrun] at h
    cases h
    exact RunFrame.rfl s

/-- Settles O49: the memory part of `step_runFrame`. -/
theorem stepKeepsCanonicalMemory : Obligations.StepKeepsCanonicalMemory := by
  unfold Obligations.StepKeepsCanonicalMemory
  intro s t hinv hstep
  exact (step_runFrame hstep).wf hinv

/-! ### Runs -/

/-- A run goes on from the state its first step answers. -/
theorem run_succ_of_next (M : Host.Core) {s u : M.State} (n : Nat) (h : M.step s = .next u) :
    M.run (n + 1) s = M.run n u := by
  rw [Host.Core.run, h]

/-- A run that answers a state does so after a first step that does. -/
theorem exists_of_run_succ (M : Host.Core) {n : Nat} {s t : M.State} (h : M.run (n + 1) s = .next t) :
    ∃ u, M.step s = .next u ∧ M.run n u = .next t := by
  rw [Host.Core.run] at h
  split at h
  next u hu => exact ⟨u, hu, h⟩
  next => cases h
  next => cases h

theorem core_run_runFrame {n : Nat} {s t : State} (h : Sys2Proof.core.run n s = .next t) : RunFrame s t := by
  induction n generalizing s with
  | zero =>
    cases h
    exact RunFrame.rfl t
  | succ n ih =>
    obtain ⟨u, hstep, hrest⟩ := exists_of_run_succ core h
    exact (step_runFrame hstep).trans (ih hrest)

/-- Settles O52: the output part of the frame of a run. -/
theorem outputOnlyGrows : Obligations.OutputOnlyGrows := by
  unfold Obligations.OutputOnlyGrows
  intro n s t h
  exact (core_run_runFrame h).output

/-- Settles O53: the input part of the frame of a run. -/
theorem inputIsConsumedInOrderOnce : Obligations.InputIsConsumedInOrderOnce := by
  unfold Obligations.InputIsConsumedInOrderOnce
  intro n s t h
  exact (core_run_runFrame h).input

/-- Settles O54: the flags part of the frame of a run. -/
theorem condNeverBecomesNoneAgain : Obligations.CondNeverBecomesNoneAgain := by
  unfold Obligations.CondNeverBecomesNoneAgain
  intro n s t hset h hnone
  exact hset ((core_run_runFrame h).cond hnone)

/-- Settles O46: each step of a stopped machine answers the machine itself. -/
theorem stoppedRunStaysStopped : Obligations.StoppedRunStaysStopped := by
  unfold Obligations.StoppedRunStaysStopped
  intro n s hstop
  induction n with
  | zero => rfl
  | succ n ih => exact (run_succ_of_next core n (step_stopped hstop)).trans ih

/-- Settles O60: after the signal the machine does not run, and a stopped machine stays as it is (O46). -/
theorem signalEndsTheRunAtABoundary : Obligations.SignalEndsTheRunAtABoundary := by
  unfold Obligations.SignalEndsTheRunAtABoundary
  intro n s
  have heq : s.hostTerminate = { s with status := if s.status = .running then .terminated else s.status } := by
    unfold State.hostTerminate
    split
    next h => rw [if_pos h]
    next h => rw [if_neg (by simp [h])]
    next h => rw [if_neg (by simp [h])]
  refine ⟨heq, stoppedRunStaysStopped n s.hostTerminate ?_⟩
  rw [heq]
  by_cases hrun : s.status = .running <;> simp [hrun]

/-! ### Canonical memories -/

/-- Settles O50: the reset memory lists nothing. -/
theorem resetMemoryIsCanonical : Obligations.ResetMemoryIsCanonical := by
  unfold Obligations.ResetMemoryIsCanonical
  exact ⟨.nil, fun c hc => absurd hc List.not_mem_nil⟩

/-- A byte that is not zero is listed, at its key. -/
theorem Memory.mem_of_byte_ne_zero {m : Memory} {k : Nat} (h : m.byte k ≠ 0) : (k, m.byte k) ∈ m := by
  induction m with
  | nil => exact absurd rfl h
  | cons c m ih =>
    rw [Memory.byte] at h ⊢
    by_cases hc : c.1 = k
    · rw [if_pos hc, ← hc]
      exact List.mem_cons_self
    · rw [if_neg hc] at h ⊢
      exact List.mem_cons_of_mem _ (ih h)

/-- In a sorted memory a listed byte is the byte at its key. -/
theorem Memory.byte_of_mem {m : Memory} (hsorted : m.Pairwise (fun c d => c.1 < d.1)) {c : Host.Cell} (hc : c ∈ m) :
    m.byte c.1 = c.2 := by
  induction m with
  | nil => exact absurd hc List.not_mem_nil
  | cons d m ih =>
    obtain ⟨hd, hm⟩ := List.pairwise_cons.mp hsorted
    rw [Memory.byte]
    obtain rfl | hcm := List.mem_cons.mp hc
    · rw [if_pos rfl]
    · rw [if_neg (hd c hcm).ne, ih hm hcm]

/-- Words that are equal have equal bytes. -/
theorem bytes_of_append_eq {x y x' y' : Byte} (h : (x ++ y : BitVec 16) = x' ++ y') : x = x' ∧ y = y' := by
  obtain rfl : y = y' := by
    have hlow := congrArg (BitVec.setWidth 8) h
    rwa [BitVec.setWidth_append, BitVec.setWidth_append, dif_pos le_rfl, dif_pos le_rfl, BitVec.setWidth_eq,
      BitVec.setWidth_eq] at hlow
  exact ⟨(BitVec.append_left_inj y).mp h, rfl⟩

/-- Memories with equal cells have equal bytes at every key inside the cells. -/
theorem Memory.byte_eq_of_read_eq {m m' : Memory} (h : ∀ a : Word, m.read a = m'.read a) {k : Nat} (hk : k < 131072) :
    m.byte k = m'.byte k := by
  have hcell : (BitVec.ofNat 16 (k / 2)).toNat = k / 2 := Nat.mod_eq_of_lt (by omega)
  obtain ⟨hhigh, hlow⟩ := bytes_of_append_eq (h (BitVec.ofNat 16 (k / 2)))
  rw [hcell] at hhigh hlow
  rcases Nat.mod_two_eq_zero_or_one k with hk0 | hk1
  · have hkey : 2 * (k / 2) = k := by omega
    rwa [hkey] at hhigh
  · have hkey : 2 * (k / 2) + 1 = k := by omega
    rwa [hkey] at hlow

theorem Memory.subset_of_read_eq {m m' : Memory} (hm : m.wf) (h : ∀ a : Word, m.read a = m'.read a) {c : Host.Cell}
    (hc : c ∈ m) : c ∈ m' := by
  obtain ⟨hkey, hzero⟩ := hm.2 c hc
  have hbyte : m'.byte c.1 = c.2 := (Memory.byte_eq_of_read_eq h hkey).symm.trans (Memory.byte_of_mem hm.1 hc)
  have hmem := Memory.mem_of_byte_ne_zero (m := m') (k := c.1) (by rwa [hbyte])
  rwa [hbyte] at hmem

/-- Settles O51: the two memories list the same bytes, and a list sorted by key is determined by its members. -/
theorem equalCellsAreEqualMemory : Obligations.EqualCellsAreEqualMemory := by
  unfold Obligations.EqualCellsAreEqualMemory
  intro m m' hm hm' h
  have hirrefl : Std.Irrefl (fun c d : Host.Cell => c.1 < d.1) := ⟨fun c => lt_irrefl c.1⟩
  have hantisymm : Std.Antisymm (fun c d : Host.Cell => c.1 < d.1) := ⟨fun c d hcd hdc => absurd hdc hcd.asymm⟩
  exact hm.1.eq_of_mem_iff hm'.1 fun c =>
    ⟨Memory.subset_of_read_eq hm h, Memory.subset_of_read_eq hm' fun a => (h a).symm⟩

end Sys2Proof.Machine
end

section
/-! SUPPORT. The reset state, the cells an image of any length leaves, and loading images in sequence (family other:
10_state.md, 70_reset_and_hazards.md). -/

namespace Sys2Proof.Machine

open Sys2Proof.Claims

/-- The cells of the memory that lists nothing are zero. -/
theorem Memory.read_nil (a : Word) : Memory.read [] a = 0 := by
  rw [Memory.read, Memory.byte, Memory.byte]
  decide

/-- Settles O55: every register of the reset state is zero, and so is every cell of the empty memory. -/
theorem resetStateIsAsListed : Obligations.ResetStateIsAsListed := by
  unfold Obligations.ResetStateIsAsListed
  refine ⟨fun r => ?_, Memory.read_nil, rfl, rfl, rfl, rfl⟩
  simp [State.reg, State.reset]

/-! ### Words past the top -/

/-- The numbers of the words, of `n` from `origin` on, that are stored to the cell at `a` (R142). -/
def storedAt (mode : LoadOverflow) (origin n : Nat) (a : Word) : List Nat :=
  (List.range n).filter fun k => (decide (origin + k < 65536) || mode == .wrap) && BitVec.ofNat 16 (origin + k) == a

section
variable {mode : LoadOverflow} {origin : Nat}

/-- When the first word has a cell, it counts if that cell is the one at `a`; the others are those from the next
address on. -/
theorem storedAt_succ (h : origin < 65536 ∨ mode = .wrap) (n : Nat) (a : Word) :
    storedAt mode origin (n + 1) a =
      (if a = BitVec.ofNat 16 origin then [0] else []) ++ (storedAt mode (origin + 1) n a).map (· + 1) := by
  have hstored : (decide (origin < 65536) || mode == .wrap) = true := by simpa using h
  simp only [storedAt, List.range_succ_eq_map, List.filter_cons, List.filter_map, Nat.add_zero, hstored,
    Function.comp_def, Nat.succ_eq_add_one, Nat.add_assoc, Nat.add_comm 1, Bool.true_and, beq_iff_eq, eq_comm (b := a)]
  split <;> rfl

/-- When truncation drops the first word it drops them all. -/
theorem storedAt_dropped (h : ¬ (origin < 65536 ∨ mode = .wrap)) (n : Nat) (a : Word) :
    storedAt mode origin n a = [] := by
  obtain ⟨hpast, hmode⟩ := not_or.mp h
  have hall : ∀ k, ¬ origin + k < 65536 := fun k => by omega
  simp [storedAt, hall, hmode]

end

/-- The cell at `a` holds the last word stored to it, or what it held before. -/
theorem read_loadWords (mode : LoadOverflow) (origin : Nat) (ws : List Word) (m : Memory) (a : Word) :
    (loadWords mode origin ws m).read a =
      (((storedAt mode origin ws.length a).getLast?).map (ws.getD · 0)).getD (m.read a) := by
  induction ws generalizing origin m with
  | nil => rfl
  | cons w ws ih =>
    by_cases h : origin < 65536 ∨ mode = .wrap
    · rw [loadWords_cons_stored h, ih, Memory.read_write, List.length_cons, storedAt_succ h, List.getLast?_append,
        List.getLast?_map]
      cases (storedAt mode (origin + 1) ws.length a).getLast? with
      | some k => rfl
      | none => split <;> rfl
    · rw [loadWords_cons_dropped h, storedAt_dropped h]
      rfl

/-- Settles O58: `read_loadWords`, with the two cases of the last word written out. -/
theorem loadingPastTheTopDropsOrWraps : Obligations.LoadingPastTheTopDropsOrWraps := by
  unfold Obligations.LoadingPastTheTopDropsOrWraps
  intro mode origin ws m a
  rw [read_loadWords, storedAt]
  split
  next k hk => rw [hk, Option.map_some, Option.getD_some]
  next hnone => rw [hnone, Option.map_none, Option.getD_none]

/-! ### Images in sequence -/

theorem loadImages_cons_ok {f : ImageFile} {origin : Word} {ws : List Word} (h : parseImage f = .ok (origin, ws))
    (fs : List ImageFile) (m : Memory) :
    loadImages (f :: fs) m = loadImages fs (loadWords Config.loadOverflow origin.toNat ws m) := by
  rw [loadImages, h]

theorem loadImages_cons_error {f : ImageFile} {e : BootError} (h : parseImage f = .error e) (fs : List ImageFile)
    (m : Memory) : loadImages (f :: fs) m = .error e := by
  rw [loadImages, h]

/-- Loading a list is loading its first part and then the rest on that memory (R143). -/
theorem loadImages_append (fs gs : List ImageFile) (m : Memory) :
    loadImages (fs ++ gs) m = (loadImages fs m).bind (loadImages gs) := by
  induction fs generalizing m with
  | nil => rfl
  | cons f fs ih =>
    cases hparse : parseImage f with
    | error e =>
      rw [List.cons_append, loadImages_cons_error hparse, loadImages_cons_error hparse]
      rfl
    | ok image => rw [List.cons_append, loadImages_cons_ok hparse, loadImages_cons_ok hparse, ih]

/-- Images that load have all parsed. -/
theorem exists_parseImage_of_loadImages_ok {files : List ImageFile} {m m' : Memory} (h : loadImages files m = .ok m') :
    ∀ f ∈ files, ∃ image, parseImage f = .ok image := by
  induction files generalizing m with
  | nil => exact fun f hf => absurd hf List.not_mem_nil
  | cons g fs ih =>
    obtain ⟨origin, ws, hparse, hrest⟩ := exists_of_loadImages_cons_ok h
    exact List.forall_mem_cons.mpr ⟨⟨_, hparse⟩, ih hrest⟩

theorem boot_of_loadImages_ok {files : List ImageFile} {m : Memory} (hne : files ≠ [])
    (h : loadImages files State.reset.mem = .ok m) : boot files = .ok { State.reset with mem := m } := by
  obtain ⟨f, fs, rfl⟩ := List.exists_cons_of_ne_nil hne
  rw [boot, h]

theorem boot_of_loadImages_error {files : List ImageFile} {e : BootError} (hne : files ≠ [])
    (h : loadImages files State.reset.mem = .error e) : boot files = .error e := by
  obtain ⟨f, fs, rfl⟩ := List.exists_cons_of_ne_nil hne
  rw [boot, h]

/-- Settles O59: the equations of `loadImages` and `boot`, and what a booted state came from (`exists_of_boot_ok`). -/
theorem imagesLoadInSequenceOrNotAtAll : Obligations.ImagesLoadInSequenceOrNotAtAll := by
  unfold Obligations.ImagesLoadInSequenceOrNotAtAll
  refine ⟨fun m => rfl, fun f origin ws m h => loadImages_cons_ok h [] m, fun f e m h => loadImages_cons_error h [] m,
    fun fs gs m => ?_, rfl, fun files m => boot_of_loadImages_ok, fun files e => boot_of_loadImages_error,
    fun files s h => ?_⟩
  · rw [loadImages_append]
    cases loadImages fs m <;> rfl
  · obtain ⟨m, hload, rfl⟩ := exists_of_boot_ok h
    refine ⟨?_, rfl, exists_parseImage_of_loadImages_ok hload⟩
    rintro rfl
    cases h

end Sys2Proof.Machine
end
